-- ==== Sys2Proof/Word.lean ====
section
/-!
DEFINITION. The values of the engine (00_scope.md R6, R10): bytes, words, and a file of eight words.
-/
namespace Sys2Proof

/-- A byte, `0..255` (R10). Bit 7 is the first message bit (R56). -/
abbrev Byte := BitVec 8

/-- A word, `0..2^32 - 1` (R10). Words are unsigned. -/
abbrev Word := BitVec 32

/-- The values `0..64` of the word or round index T (10_state.md R20, R27): a 7-bit counter that never
holds more than 64 (00_scope.md R9). -/
abbrev Index := Fin 65

/-- Eight words `x[0..7]`: the shape of the working registers, the hash state, the digest registers
and the table IV (10_state.md R30, R31, R32; 40_arith.md R101). -/
structure Words8 where
  w0 : Word
  w1 : Word
  w2 : Word
  w3 : Word
  w4 : Word
  w5 : Word
  w6 : Word
  w7 : Word
  deriving DecidableEq, Repr, Inhabited

/-- Word `x[i]` (00_scope.md R12). -/
def Words8.get (x : Words8) (i : Fin 8) : Word :=
  match i with
  | 0 => x.w0
  | 1 => x.w1
  | 2 => x.w2
  | 3 => x.w3
  | 4 => x.w4
  | 5 => x.w5
  | 6 => x.w6
  | 7 => x.w7

/-- Eight times the same word. -/
def Words8.all (v : Word) : Words8 := ⟨v, v, v, v, v, v, v, v⟩

end Sys2Proof
end

