-- ==== Sys2Proof/Machine/Arith.lean ====
section
/-!
DEFINITION. The pure functions and tables of 40_arith.md, and the big-endian packing of 20_memory.md.
-/
namespace Sys2Proof.Machine

/-- Addition modulo `2^32`, no overflow signal (40_arith.md R90). -/
def add32 (x y : Word) : Word := x + y

/-- Rotate right by `n`, `1 ≤ n ≤ 31` (40_arith.md R91). Other `n` have no meaning there: DESIGN CHOICE, log 13. -/
def rotr (x : Word) (n : Nat) : Word := (x >>> n) ||| (x <<< (32 - n))

/-- Logical shift right (40_arith.md R92). -/
def shr (x : Word) (n : Nat) : Word := x >>> n

/-- 40_arith.md R95. -/
def sigma0 (x : Word) : Word := rotr x 7 ^^^ rotr x 18 ^^^ shr x 3

/-- 40_arith.md R96. -/
def sigma1 (x : Word) : Word := rotr x 17 ^^^ rotr x 19 ^^^ shr x 10

/-- `Sigma0` of 40_arith.md R97. -/
def bigSigma0 (x : Word) : Word := rotr x 2 ^^^ rotr x 13 ^^^ rotr x 22

/-- `Sigma1` of 40_arith.md R98. -/
def bigSigma1 (x : Word) : Word := rotr x 6 ^^^ rotr x 11 ^^^ rotr x 25

/-- 40_arith.md R99. -/
def ch (e f g : Word) : Word := (e &&& f) ^^^ (~~~e &&& g)

/-- 40_arith.md R100. -/
def maj (a b c : Word) : Word := (a &&& b) ^^^ (a &&& c) ^^^ (b &&& c)

/-- The 64 round constants, row by row as 40_arith.md R93 prints them (general knowledge GK1, log 11). -/
def kTable : List Word :=
  [0x428a2f98, 0x71374491, 0xb5c0fbcf, 0xe9b5dba5] ++
  [0x3956c25b, 0x59f111f1, 0x923f82a4, 0xab1c5ed5] ++
  [0xd807aa98, 0x12835b01, 0x243185be, 0x550c7dc3] ++
  [0x72be5d74, 0x80deb1fe, 0x9bdc06a7, 0xc19bf174] ++
  [0xe49b69c1, 0xefbe4786, 0x0fc19dc6, 0x240ca1cc] ++
  [0x2de92c6f, 0x4a7484aa, 0x5cb0a9dc, 0x76f988da] ++
  [0x983e5152, 0xa831c66d, 0xb00327c8, 0xbf597fc7] ++
  [0xc6e00bf3, 0xd5a79147, 0x06ca6351, 0x14292967] ++
  [0x27b70a85, 0x2e1b2138, 0x4d2c6dfc, 0x53380d13] ++
  [0x650a7354, 0x766a0abb, 0x81c2c92e, 0x92722c85] ++
  [0xa2bfe8a1, 0xa81a664b, 0xc24b8b70, 0xc76c51a3] ++
  [0xd192e819, 0xd6990624, 0xf40e3585, 0x106aa070] ++
  [0x19a4c116, 0x1e376c08, 0x2748774c, 0x34b0bcb5] ++
  [0x391c0cb3, 0x4ed8aa4a, 0x5b9cca4f, 0x682e6ff3] ++
  [0x748f82ee, 0x78a5636f, 0x84c87814, 0x8cc70208] ++
  [0x90befffa, 0xa4506ceb, 0xbef9a3f7, 0xc67178f2]

/-- `K[t]`, `t < 64` (40_arith.md R93). Every use is behind a check that `t < 64`; the word from 64 on is
DESIGN CHOICE, log 13. -/
def kAt (t : Nat) : Word := kTable.getD t 0

/-- `IV[0..7]` (40_arith.md R101). -/
def iv : Words8 :=
  ⟨0x6a09e667, 0xbb67ae85, 0x3c6ef372, 0xa54ff53a, 0x510e527f, 0x9b05688c, 0x1f83d9ab, 0x5be0cd19⟩

/-- `W[i]`, `i < 64` (10_state.md R29). Every use is behind a check that `i < 64`; the word from 64 on is
DESIGN CHOICE, log 13. -/
def wAt (w : Vector Word 64) (i : Nat) : Word := w[i]?.getD 0

/-- `W[i] <- x` (43_schedule.md R128: only `W[i]` changes). -/
def wSet (w : Vector Word 64) (i : Nat) (x : Word) : Vector Word 64 := w.setIfInBounds i x

/-- Big-endian packing of four bytes, the first most significant (20_memory.md R53). -/
def packWord (b0 b1 b2 b3 : Byte) : Word := b0 ++ b1 ++ b2 ++ b3

/-- The four bytes of a word, most significant first (20_memory.md R55). -/
def wordBytes (x : Word) : List Byte :=
  [x.extractLsb' 24 8, x.extractLsb' 16 8, x.extractLsb' 8 8, x.extractLsb' 0 8]

/-- Eight words serialised big-endian, word 0 first: 32 bytes (20_memory.md R55). -/
def digestBytes (x : Words8) : List Byte :=
  wordBytes x.w0 ++ wordBytes x.w1 ++ wordBytes x.w2 ++ wordBytes x.w3 ++
  wordBytes x.w4 ++ wordBytes x.w5 ++ wordBytes x.w6 ++ wordBytes x.w7

/-- The `n`-byte big-endian representation of `v`, `v < 256^n` (00_scope.md R13). That a greater `v` gives its
low `n` bytes is DESIGN CHOICE, log 13. -/
def beBytes (n v : Nat) : List Byte :=
  (List.range n).map (fun j => BitVec.ofNat 8 (v / 256 ^ (n - 1 - j)))

/-- Eight independent additions modulo `2^32`, no carry between words (44_compress.md R132). -/
def addWords (x y : Words8) : Words8 :=
  ⟨add32 x.w0 y.w0, add32 x.w1 y.w1, add32 x.w2 y.w2, add32 x.w3 y.w3,
   add32 x.w4 y.w4, add32 x.w5 y.w5, add32 x.w6 y.w6, add32 x.w7 y.w7⟩

/-- The word a WEXP step derives from `W[T-16]`, `W[T-15]`, `W[T-7]`, `W[T-2]` (43_schedule.md R126). -/
def expandWord (w16 w15 w7 w2 : Word) : Word :=
  add32 (add32 (add32 w16 (sigma0 w15)) w7) (sigma1 w2)

/-- The eight simultaneous register writes of one round on `r = (a, …, h)` with round constant `k` and
schedule word `x` (44_compress.md R131). -/
def roundWords (r : Words8) (k x : Word) : Words8 :=
  let a := r.w0
  let b := r.w1
  let c := r.w2
  let d := r.w3
  let e := r.w4
  let f := r.w5
  let g := r.w6
  let h := r.w7
  let t1 := add32 (add32 (add32 (add32 h (bigSigma1 e)) (ch e f g)) k) x
  let t2 := add32 (bigSigma0 a) (maj a b c)
  ⟨add32 t1 t2, a, b, c, add32 d t1, e, f, g⟩

/-- The padded length in bytes of a message of `L` bytes: the smallest multiple of 512 bits that holds
`8 * L + 1 + 64` bits (41_encoder.md R110). -/
def paddedLen (L : Nat) : Nat := 512 * ((8 * L + 1 + 64 + 511) / 512) / 8

end Sys2Proof.Machine
end

