-- ==== Sys2Proof/Config.lean ====
section
/-!
DEFINITION. What an instance fixes (00_scope.md R7, R8) and the values the spec leaves open
(93_implementation_defined.md U1, U3, U6, U8). An `opaque` constant has no body: nothing can evaluate
it, so whatever is proved of it holds for every value.
-/
namespace Sys2Proof

/-- The two implementation parameters (00_scope.md R7, R8). -/
structure Params where
  /-- `MSG_CAP`, the maximum message length in bytes (R7). -/
  msgCap : Nat
  /-- `PB_CAP`, the capacity in bytes of the padded-block buffer (R8). -/
  pbCap : Nat
  deriving DecidableEq, Repr, Inhabited

/-- The constraints of 00_scope.md R7 and R8. -/
def Params.legal (p : Params) : Bool :=
  decide (p.msgCap ≤ 2 ^ 61 - 1) && decide (p.pbCap % 64 = 0) && decide (64 ≤ p.pbCap)

/-- `PB_CAP_FULL`, the default of `PB_CAP` (00_scope.md R8). -/
def Params.pbCapFull (msgCap : Nat) : Nat := 64 * ((msgCap + 8) / 64 + 1)

/-- Open: the number `MSG_CAP` is taken from (U3, log 3). -/
opaque Config.openMsgCap : Nat

/-- Open: the number of 64-byte blocks of PB beyond the first (U6, log 3). -/
opaque Config.openPbBlocks : Nat

/-- The parameters of the instance: open, but within R7 and R8. Every legal pair is one of these. -/
def Config.params : Params :=
  { msgCap := Config.openMsgCap % 2 ^ 61, pbCap := 64 * (Config.openPbBlocks + 1) }

/-- Free value, one per draw: what RESULT returns while `DVALID = 0` (U1, 46_host.md R154 (a), log 4). -/
opaque Config.drawResult : Nat → Words8

/-- Free value, one per draw: the cells MSG holds after RESET (U8, log 4). -/
opaque Config.drawMsg : Nat → List (Nat × Byte)

/-- Free value, one per draw: the cells PB holds after RESET (U8, log 4). -/
opaque Config.drawPb : Nat → List (Nat × Byte)

/-- Free value, one per draw: LEN after RESET, before it is brought into its range (U8, log 4). -/
opaque Config.drawLen : Nat → Nat

/-- Free value, one per draw: PLEN after RESET, before it is brought into its range (U8, log 4). -/
opaque Config.drawPlen : Nat → Nat

/-- Free value, one per draw: NCH after RESET, before it is brought into its range (U8, log 4). -/
opaque Config.drawNch : Nat → Nat

/-- Free value, one per draw: CI after RESET, before it is brought into its range (U8, log 4). -/
opaque Config.drawCi : Nat → Nat

/-- Free value, one per draw: T after RESET (U8, log 4). -/
opaque Config.drawT : Nat → Index

/-- Free value, one per draw: W after RESET (U8, log 4). -/
opaque Config.drawW : Nat → Vector Word 64

/-- Free value, one per draw: the working registers after RESET (U8, log 4). -/
opaque Config.drawR : Nat → Words8

/-- Free value, one per draw: HS after RESET (U8, log 4). -/
opaque Config.drawHs : Nat → Words8

/-- Free value, one per draw: DG after RESET (U8, log 4). -/
opaque Config.drawDg : Nat → Words8

end Sys2Proof
end

