-- ==== Sys2Proof/Syntax.lean ====
section
/-!
DEFINITION. The operations of opcode_table.json, the selector bits that name them, and the names a
decoder gives to a selector that names none (30_encoding.md R70 to R78, R82).
-/
namespace Sys2Proof

/-- The sixteen values of the 4-bit register PHASE (30_encoding.md R75). `reserved` is code `0xF`,
which no rule writes (R78). -/
inductive Phase where
  | idle
  | psize
  | pzero
  | pcopy
  | pstop
  | plenf
  | chunk
  | init
  | wload
  | wexp
  | rload
  | round
  | feed
  | next
  | emit
  | reserved
  deriving DecidableEq, Repr, Inhabited

/-- One constructor per row of opcode_table.json: four host commands, fourteen micro-operations, the
RESET input. Micro-operations have no encoded operands (R70): they read registers. -/
inductive Instr where
  /-- 46_host.md R150. -/
  | nop
  /-- 46_host.md R151: `L`, and the bytes `payload[0..L-1]` (30_encoding.md R71, R73). -/
  | submit (L : Nat) (payload : List Byte)
  /-- 46_host.md R153. -/
  | result
  /-- 46_host.md R155. -/
  | status
  /-- 41_encoder.md R110. -/
  | psize
  /-- 41_encoder.md R111. -/
  | pzero
  /-- 41_encoder.md R112. -/
  | pcopy
  /-- 41_encoder.md R113. -/
  | pstop
  /-- 41_encoder.md R114. -/
  | plenf
  /-- 42_chunker.md R120. -/
  | chunk
  /-- 45_aggregator.md R140. -/
  | init
  /-- 43_schedule.md R125. -/
  | wload
  /-- 43_schedule.md R126. -/
  | wexp
  /-- 44_compress.md R130. -/
  | rload
  /-- 44_compress.md R131. -/
  | round
  /-- 44_compress.md R132. -/
  | feed
  /-- 45_aggregator.md R145. -/
  | next
  /-- 45_aggregator.md R146. -/
  | emit
  /-- 70_reset_and_hazards.md R180. -/
  | reset
  deriving DecidableEq, Repr

/-- What selects an operation, one alternative per format of 30_encoding.md R70. -/
inductive Selector where
  /-- `CMD`: the tuple `(cmd[1:0], L, payload)` of R71; `L` and `payload` are present only for SUBMIT. -/
  | cmd (code : BitVec 2) (operands : Option (Nat × List Byte))
  /-- `UOP`: the 4-bit value of PHASE (R75). -/
  | uop (phase : BitVec 4)
  /-- `SIG`: the 1-bit reset line (R77). -/
  | sig (reset : BitVec 1)
  deriving DecidableEq, Repr

/-- Why a selector names no operation. -/
inductive DecodeError where
  /-- `PHASE = 0x0`: IDLE is not an operation (R75, R82). -/
  | idlePhase
  /-- `PHASE = 0xF`: the reserved code (R78). -/
  | reservedPhase
  /-- The reset line is low: no event (R77). -/
  | resetInactive
  /-- A SUBMIT without `L` and `payload` (R71). -/
  | operandsMissing
  /-- Operands on a command that has none (R71). -/
  | operandsUnexpected
  /-- A payload that has not exactly `L` bytes (R71, R73). -/
  | payloadLength
  deriving DecidableEq, Repr

/-- One event of the environment's schedule: who moves next, and with what (00_scope.md R15).
The list of them is the model's own device for arbitrary interleaving (log 1). -/
inductive Input where
  /-- A host presents a command on the command port (30_encoding.md R71). -/
  | command (code : BitVec 2) (operands : Option (Nat × List Byte))
  /-- The environment asserts the RESET input (70_reset_and_hazards.md R180). -/
  | resetLine
  /-- The host does nothing and the engine has the turn. -/
  | engineTurn
  deriving DecidableEq, Repr

end Sys2Proof
end

