-- ==== Sys2Proof/Machine/State.lean ====
section
/-!
DEFINITION. The state of one engine instance (10_state.md R20: "the following, and nothing else"), the
model's own bookkeeping beside it, the ways a step can stop, and the state right after reset.
-/
namespace Sys2Proof.Machine

/-- A byte memory: the cells that differ from `0x00`, addresses strictly rising (log 6). -/
abbrev Memory := List Host.Cell

/-- ERR, the 2-bit error report (10_state.md R35, 60_exceptions.md R160). -/
inductive ErrCode where
  /-- Code 0. -/
  | none
  /-- Code 1, raised by SUBMIT (R161). -/
  | lengthExceeded
  /-- Code 2, raised by PSIZE (R162). -/
  | allocationFailure
  /-- Code 3, raised by CHUNK (R163). -/
  | invariantViolation
  deriving DecidableEq, Repr, Inhabited

/-- What a command returns to the host (30_encoding.md R74). -/
inductive Reply where
  /-- RESULT's 32 bytes, first byte first. -/
  | digest (bytes : List Byte)
  /-- STATUS's 8-bit status word. -/
  | status (word : BitVec 8)
  deriving DecidableEq, Repr

/-- The state. The fields down to `err` are the spec's (10_state.md R20); the last four are the model's. -/
structure State where
  /-- `MSG[0..MSG_CAP)`, the staged message (R21). -/
  msg : Memory
  /-- `LEN`, the message length in bytes (R22). -/
  len : Nat
  /-- `PB[0..PB_CAP)`, the padded-block buffer (R23). -/
  pb : Memory
  /-- `PLEN`, the padded length in bytes (R24). -/
  plen : Nat
  /-- `NCH`, the chunk count (R25). -/
  nch : Nat
  /-- `CI`, the index of the chunk in process (R26). -/
  ci : Nat
  /-- `T`, the word or round index, a 7-bit counter with the values `0..64` (R27, 00_scope.md R9). -/
  t : Index
  /-- `PHASE`, the next micro-operation (R28). -/
  phase : Phase
  /-- `W[0..63]`, the message schedule (R29). -/
  w : Vector Word 64
  /-- `r[0..7] = a..h`, the working registers (R30). -/
  r : Words8
  /-- `HS[0..7]`, the hash-state accumulator (R31). -/
  hs : Words8
  /-- `DG[0..7]`, the digest registers (R32). -/
  dg : Words8
  /-- `DONE`, the completion indicator (R33). -/
  done : Bool
  /-- `DVALID`, a digest has been produced since reset (R34). -/
  dvalid : Bool
  /-- `ERR`, the error report (R35). -/
  err : ErrCode
  /-- The model's: the parameters `MSG_CAP` and `PB_CAP`, which no step writes (00_scope.md R7, R8; log 3). -/
  cfg : Params
  /-- The model's: the environment's schedule, next event first (00_scope.md R15; log 1, log 2). -/
  inputs : List Input
  /-- The model's: the responses returned to the host so far, oldest first (30_encoding.md R74; log 7). -/
  replies : List Reply
  /-- The model's: how many unspecified values have been drawn (log 4). -/
  draws : Nat
  deriving DecidableEq, Repr

/-- Why the machine stops. None of these is an exception of the spec: those are next states. -/
inductive Fault where
  /-- Raised by `step` when the engine has the turn and `PHASE = 0xF`: the engine is stuck
  (30_encoding.md R78, U7). Safe: the spec gives the engine no step there (log 9). -/
  | reservedPhase
  /-- Raised by WLOAD, WEXP and ROUND when T is outside the range their operand lines state
  (R125, R126, R131). Safe: the rules give no effect there and no run reaches it (R142, log 8). -/
  | indexRange
  /-- Raised by PCOPY when `LEN > MSG_CAP`: MSG has no such cell (R13, R50). Safe (log 8). -/
  | msgRange
  /-- Raised by PZERO, PCOPY, PSTOP, PLENF and WLOAD when a cell at or above `PB_CAP`, or below 0, is
  addressed: PB has no such cell (R13, R50). Safe (log 8). -/
  | pbRange
  /-- Raised by PLENF when `8 * LEN >= 2^64`: the case is outside the spec (N8, U9). Safe (log 8). -/
  | lengthRange
  deriving DecidableEq, Repr

/-- Why a step is refused. -/
inductive Refusal where
  /-- `exec` has no meaning for the instruction yet. Safe. No arm answers so. -/
  | notModelled (mnemonic : String)
  /-- Raised by `step` when the command presented is not a tuple of 30_encoding.md R71 (log 10). Safe:
  it is no command of the engine. -/
  | malformedInput (why : DecodeError)
  deriving DecidableEq, Repr

/-- The outcome of a step or of an instruction. -/
abbrev Result := Host.Outcome State Fault Refusal

/-- The state right after reset on an instance with the parameters `p`: PHASE, DONE, DVALID and ERR as
70_reset_and_hazards.md R180 and R181 say; the rest, which R181 leaves unspecified, at the values of
log 5 (DESIGN CHOICE). -/
def State.resetWith (p : Params) : State where
  msg := []
  len := 0
  pb := []
  plen := 64
  nch := 0
  ci := 0
  t := 0
  phase := .idle
  w := Vector.replicate 64 0
  r := Words8.all 0
  hs := Words8.all 0
  dg := Words8.all 0
  done := false
  dvalid := false
  err := .none
  cfg := p
  inputs := []
  replies := []
  draws := 0

/-- The machine right after reset, its two parameters open (log 3). -/
def State.reset : State := State.resetWith Config.params

end Sys2Proof.Machine
end

