-- ==== Sys2Proof/Machine/Ops.lean ====
section
/-!
DEFINITION. The named operations over memory, registers and the schedule: reading and writing MSG and
PB (00_scope.md R13, 20_memory.md R50), the abort (60_exceptions.md R164), responses, and the free
values a RESET draws.
-/
namespace Sys2Proof.Machine

/-! ### Memory -/

/-- What an address that is not listed reads as (DESIGN CHOICE, log 6). -/
def Memory.blank : Byte := 0

/-- One byte. -/
def Memory.read (m : Memory) (a : Nat) : Byte :=
  match m with
  | [] => Memory.blank
  | (k, v) :: rest => if k = a then v else Memory.read rest a

/-- Lists cell `(a, b)` before the first cell with a greater address. -/
def Memory.insert (a : Nat) (b : Byte) (m : Memory) : Memory :=
  match m with
  | [] => [(a, b)]
  | (k, v) :: rest => if a < k then (a, b) :: (k, v) :: rest else (k, v) :: Memory.insert a b rest

/-- Unlists address `a`. -/
def Memory.erase (m : Memory) (a : Nat) : Memory := m.filter (fun c => c.1 != a)

/-- Writes one byte, keeping the canonical form: writing what an unlisted address reads as unlists it. -/
def Memory.write (m : Memory) (a : Nat) (b : Byte) : Memory :=
  if b = Memory.blank then m.erase a else Memory.insert a b (m.erase a)

/-- Writes the bytes `bs` at `a, a + 1, …`. -/
def Memory.writeBytes (m : Memory) (a : Nat) (bs : List Byte) : Memory :=
  match bs with
  | [] => m
  | b :: rest => Memory.writeBytes (m.write a b) (a + 1) rest

/-- The `n` bytes at `a, a + 1, …`. -/
def Memory.readBytes (m : Memory) (a n : Nat) : List Byte :=
  match n with
  | 0 => []
  | n + 1 => m.read a :: Memory.readBytes m (a + 1) n

/-- The word at `a`, big-endian: `MemRead(space, a, 4)` (00_scope.md R13, 20_memory.md R53). -/
def Memory.readWord (m : Memory) (a : Nat) : Word :=
  packWord (m.read a) (m.read (a + 1)) (m.read (a + 2)) (m.read (a + 3))

/-- Addresses rise strictly from above `lo`, and no cell holds what an unlisted address reads as. -/
def Memory.wfFrom (lo : Nat) (m : Memory) : Bool :=
  match m with
  | [] => true
  | (k, v) :: rest => decide (lo ≤ k) && decide (v ≠ Memory.blank) && Memory.wfFrom (k + 1) rest

/-- The canonical form of a memory: equal memories are equal lists. -/
def Memory.wf (m : Memory) : Bool := Memory.wfFrom 0 m

/-- Every listed cell lies below `cap` (20_memory.md R50). -/
def Memory.within (m : Memory) (cap : Nat) : Bool := m.all (fun c => decide (c.1 < cap))

/-- A memory of capacity `cap` with arbitrary cells `cs`, in canonical form. -/
def Memory.ofCells (cap : Nat) (cs : List Host.Cell) : Memory :=
  match cs with
  | [] => []
  | (a, b) :: rest =>
    if a < cap then (Memory.ofCells cap rest).write a b else Memory.ofCells cap rest

/-! ### Capacity: `MemRead` and `MemWrite` are defined only when `addr + n ≤ capacity` (00_scope.md R13) -/

/-- The `n` cells of PB from `a` exist. -/
abbrev State.pbHas (s : State) (a n : Nat) : Prop := a + n ≤ s.cfg.pbCap

/-- The `n` cells of MSG from `a` exist. -/
abbrev State.msgHas (s : State) (a n : Nat) : Prop := a + n ≤ s.cfg.msgCap

/-! ### Control -/

/-- `T <- T + 1`. Every use is behind a check that `T ≤ 63`, so T never wraps (10_state.md R27). -/
def indexUp (t : Index) : Index := t + 1

/-- `PHASE <- p` and nothing else (00_scope.md R14). -/
def State.goto (s : State) (p : Phase) : State := { s with phase := p }

/-- `raise X(code)` in PSIZE or CHUNK: the whole effect of the abort, the engine's trap entry
(60_exceptions.md R164). There is no return from it: a new SUBMIT or RESET clears ERR (R166). -/
def State.abort (s : State) (code : ErrCode) : State := { s with err := code, phase := .idle }

/-- Returns a response to the host (30_encoding.md R74). -/
def State.reply (s : State) (x : Reply) : State := { s with replies := s.replies ++ [x] }

/-- One unspecified value has been drawn (log 4). -/
def State.drawn (s : State) : State := { s with draws := s.draws + 1 }

/-- Every item of state that RESET leaves unspecified takes a free value of its type
(70_reset_and_hazards.md R180; 00_scope.md R9 for the ranges; U8, log 4). -/
def State.scramble (s : State) : State :=
  { s with
    msg := Memory.ofCells s.cfg.msgCap (Config.drawMsg s.draws)
    len := Config.drawLen s.draws % (s.cfg.msgCap + 1)
    pb := Memory.ofCells s.cfg.pbCap (Config.drawPb s.draws)
    plen := 64 * (1 + Config.drawPlen s.draws % (s.cfg.pbCap / 64))
    nch := Config.drawNch s.draws % (s.cfg.pbCap / 64 + 1)
    ci := Config.drawCi s.draws % (s.cfg.pbCap / 64 + 1)
    t := Config.drawT s.draws
    w := Config.drawW s.draws
    r := Config.drawR s.draws
    hs := Config.drawHs s.draws
    dg := Config.drawDg s.draws
    draws := s.draws + 1 }

end Sys2Proof.Machine
end

