-- ==== Sys2Proof/Machine/Flags.lean ====
section
/-!
DEFINITION. The status of the engine: DONE, BUSY, DVALID, ERR and the status word (10_state.md R33 to
R36, 30_encoding.md R74). There is no other flag (R36).
-/
namespace Sys2Proof.Machine

/-- The 2-bit code of ERR (60_exceptions.md R160). -/
def ErrCode.code : ErrCode → BitVec 2
  | .none => 0
  | .lengthExceeded => 1
  | .allocationFailure => 2
  | .invariantViolation => 3

/-- `BUSY = 1 if PHASE != IDLE else 0`; not stored (10_state.md R36). -/
def State.busy (s : State) : Bool := s.phase != .idle

/-- The status word `0b00 || ERR[1:0] || 0 || DVALID || BUSY || DONE` (46_host.md R155). -/
def State.statusWord (s : State) : BitVec 8 :=
  0#2 ++ s.err.code ++ 0#1 ++ BitVec.ofBool s.dvalid ++ BitVec.ofBool s.busy ++ BitVec.ofBool s.done

/-- SUBMIT's length check failed: `ERR <- 1 ; DONE <- 0` (46_host.md R151). -/
def State.lengthExceeded (s : State) : State := { s with err := .lengthExceeded, done := false }

/-- An admitted SUBMIT clears the report of the last one: `ERR <- 0 ; DONE <- 0` (46_host.md R151). -/
def State.clearReport (s : State) : State := { s with err := .none, done := false }

/-- EMIT signals completion: `DVALID <- 1 ; DONE <- 1` (45_aggregator.md R146). -/
def State.completed (s : State) : State := { s with dvalid := true, done := true }

/-- RESET clears the flags: `DONE <- 0 ; DVALID <- 0 ; ERR <- 0` (70_reset_and_hazards.md R180). -/
def State.clearFlags (s : State) : State := { s with done := false, dvalid := false, err := .none }

end Sys2Proof.Machine
end

