-- ==== Sys2Proof/Machine/Operands.lean ====
section
/-!
DEFINITION. The operand forms of commands and micro-operations: which registers, table words and cells
the operand line of each rule names.
-/
namespace Sys2Proof.Machine

/-- SUBMIT's message: exactly `payload[0..L-1]` (30_encoding.md R73). -/
def submitBytes (L : Nat) (payload : List Byte) : List Byte := payload.take L

/-- `MSG[0..LEN)` (41_encoder.md R112). -/
def State.message (s : State) : List Byte := s.msg.readBytes 0 s.len

/-- `PB[LEN]`, the first padding byte (41_encoder.md R113). -/
def State.stopByte (s : State) : Byte := s.pb.read s.len

/-- Address of the length field, `PLEN - 8` (41_encoder.md R114). -/
def State.lengthFieldAddr (s : State) : Nat := s.plen - 8

/-- The length field: the bit length `8 * LEN`, eight bytes big-endian (41_encoder.md R114, 20_memory.md R54). -/
def State.lengthField (s : State) : List Byte := beBytes 8 (8 * s.len)

/-- Address of word T of chunk CI, `64 * CI + 4 * T` (43_schedule.md R125, 20_memory.md R52). -/
def State.chunkWordAddr (s : State) : Nat := 64 * s.ci + 4 * s.t.val

/-- Word T of chunk CI (43_schedule.md R125). -/
def State.chunkWord (s : State) : Word := s.pb.readWord s.chunkWordAddr

/-- `W[T - k]` (43_schedule.md R126). -/
def State.wBack (s : State) (k : Nat) : Word := wAt s.w (s.t.val - k)

/-- `W[T]` (44_compress.md R131). -/
def State.wT (s : State) : Word := wAt s.w s.t.val

/-- `K[T]` (44_compress.md R131). -/
def State.kT (s : State) : Word := kAt s.t.val

end Sys2Proof.Machine
end

