-- ==== Sys2Proof/Machine/Aggregator.lean ====
section
/-!
DEFINITION. The Digest Aggregator's own micro-operations: INIT, NEXT, EMIT (45_aggregator.md).
-/
namespace Sys2Proof.Machine

/-- INIT (45_aggregator.md R140). -/
def execInit (s : State) : Result :=
  .next (({ s with hs := iv, t := 0 } : State).goto .wload)

/-- NEXT (45_aggregator.md R145). -/
def execNext (s : State) : Result :=
  if s.ci + 1 < s.nch then .next (({ s with ci := s.ci + 1, t := 0 } : State).goto .wload)
  else .next (s.goto .emit)

/-- EMIT (45_aggregator.md R146): publishes the digest, DVALID, DONE and IDLE in one step. -/
def execEmit (s : State) : Result :=
  .next (({ s with dg := s.hs } : State).completed.goto .idle)

end Sys2Proof.Machine
end

