-- ==== Sys2Proof/Machine/Chunker.lean ====
section
/-!
DEFINITION. The Chunker: CHUNK (42_chunker.md).
-/
namespace Sys2Proof.Machine

/-- CHUNK (42_chunker.md R120): chunk count and chunk 0, or the abort with code 3 (60_exceptions.md R163). -/
def execChunk (s : State) : Result :=
  if s.plen % 64 = 0 then .next (({ s with nch := s.plen / 64, ci := 0 } : State).goto .init)
  else .next (s.abort .invariantViolation)

end Sys2Proof.Machine
end

