-- ==== Sys2Proof/Machine/Compress.lean ====
section
/-!
DEFINITION. The 64-round mixing core and the state accumulator: RLOAD, ROUND, FEED (44_compress.md).
-/
namespace Sys2Proof.Machine

/-- RLOAD (44_compress.md R130). -/
def execRload (s : State) : Result :=
  .next (({ s with r := s.hs, t := 0 } : State).goto .round)

/-- ROUND (44_compress.md R131), `0 ≤ T ≤ 63`. -/
def execRound (s : State) : Result :=
  if s.t.val ≤ 63 then
    .next (({ s with r := roundWords s.r s.kT s.wT, t := indexUp s.t } : State).goto
      (if s.t.val = 63 then .feed else .round))
  else .fault .indexRange

/-- FEED (44_compress.md R132). -/
def execFeed (s : State) : Result :=
  .next (({ s with hs := addWords s.hs s.r } : State).goto .next)

end Sys2Proof.Machine
end

