-- ==== Sys2Proof/Machine/Encoder.lean ====
section
/-!
DEFINITION. The padding and encoding unit: PSIZE, PZERO, PCOPY, PSTOP, PLENF (41_encoder.md).
-/
namespace Sys2Proof.Machine

/-- PSIZE (41_encoder.md R110): the padded length, or the abort with code 2 (60_exceptions.md R162). -/
def execPsize (s : State) : Result :=
  if s.cfg.pbCap < paddedLen s.len then .next (s.abort .allocationFailure)
  else .next (({ s with plen := paddedLen s.len } : State).goto .pzero)

/-- PZERO (41_encoder.md R111). -/
def execPzero (s : State) : Result :=
  if s.pbHas 0 s.plen then
    .next (({ s with pb := s.pb.writeBytes 0 (List.replicate s.plen 0) } : State).goto .pcopy)
  else .fault .pbRange

/-- PCOPY (41_encoder.md R112). -/
def execPcopy (s : State) : Result :=
  if s.msgHas 0 s.len then
    if s.pbHas 0 s.len then
      .next (({ s with pb := s.pb.writeBytes 0 s.message } : State).goto .pstop)
    else .fault .pbRange
  else .fault .msgRange

/-- PSTOP (41_encoder.md R113). -/
def execPstop (s : State) : Result :=
  if s.pbHas s.len 1 then
    .next (({ s with pb := s.pb.write s.len (s.stopByte ||| 0x80) } : State).goto .plenf)
  else .fault .pbRange

/-- PLENF (41_encoder.md R114). `MemWrite(PB, PLEN - 8, 8, 8 * LEN)` is defined only within PB and for
a value below `256^8` (00_scope.md R13). -/
def execPlenf (s : State) : Result :=
  if 2 ^ 64 ≤ 8 * s.len then .fault .lengthRange
  else if 8 ≤ s.plen ∧ s.pbHas s.lengthFieldAddr 8 then
    .next (({ s with pb := s.pb.writeBytes s.lengthFieldAddr s.lengthField } : State).goto .chunk)
  else .fault .pbRange

end Sys2Proof.Machine
end

