-- ==== Sys2Proof/Machine/HostCmd.lean ====
section
/-!
DEFINITION. The four host commands (46_host.md).
-/
namespace Sys2Proof.Machine

/-- NOP: no state change, no response (46_host.md R150). -/
def execNop (s : State) : Result := .next s

/-- The message is staged and its computation starts (46_host.md R151, the `else` branch). -/
def State.stage (s : State) (bytes : List Byte) (L : Nat) : State :=
  ({ s with msg := s.msg.writeBytes 0 bytes, len := L } : State).clearReport.goto .psize

/-- SUBMIT (46_host.md R151). While busy it is held: it changes nothing (R152); `step` leaves it
presented and lets the engine move (log 2). -/
def execSubmit (L : Nat) (payload : List Byte) (s : State) : Result :=
  if s.busy then .next s
  else if s.cfg.msgCap < L then .next s.lengthExceeded
  else .next (s.stage (submitBytes L payload) L)

/-- RESULT (46_host.md R153, R154): the bytes of DG; while `DVALID = 0` 32 unspecified bytes, drawn
afresh at each read (U1, log 4). -/
def execResult (s : State) : Result :=
  if s.dvalid then .next (s.reply (.digest (digestBytes s.dg)))
  else .next (s.drawn.reply (.digest (digestBytes (Config.drawResult s.draws))))

/-- STATUS (46_host.md R155): the status word; reading clears nothing. -/
def execStatus (s : State) : Result := .next (s.reply (.status s.statusWord))

end Sys2Proof.Machine
end

