-- ==== Sys2Proof/Machine/ResetLine.lean ====
section
/-!
DEFINITION. The RESET input (70_reset_and_hazards.md).
-/
namespace Sys2Proof.Machine

/-- RESET (70_reset_and_hazards.md R180): IDLE, the flags cleared, everything else unspecified. -/
def execReset (s : State) : Result := .next (s.scramble.clearFlags.goto .idle)

end Sys2Proof.Machine
end

