-- ==== Sys2Proof/Machine/Schedule.lean ====
section
/-!
DEFINITION. The message-schedule expander: WLOAD, WEXP (43_schedule.md).
-/
namespace Sys2Proof.Machine

/-- WLOAD (43_schedule.md R125), `0 ≤ T ≤ 15`. -/
def execWload (s : State) : Result :=
  if s.t.val ≤ 15 then
    if s.pbHas s.chunkWordAddr 4 then
      .next (({ s with w := wSet s.w s.t.val s.chunkWord, t := indexUp s.t } : State).goto
        (if s.t.val = 15 then .wexp else .wload))
    else .fault .pbRange
  else .fault .indexRange

/-- WEXP (43_schedule.md R126), `16 ≤ T ≤ 63`. -/
def execWexp (s : State) : Result :=
  if 16 ≤ s.t.val ∧ s.t.val ≤ 63 then
    .next (({ s with
        w := wSet s.w s.t.val (expandWord (s.wBack 16) (s.wBack 15) (s.wBack 7) (s.wBack 2))
        t := indexUp s.t } : State).goto (if s.t.val = 63 then .rload else .wexp))
  else .fault .indexRange

end Sys2Proof.Machine
end

