-- ==== Sys2Proof/Machine/Dispatch.lean ====
section
/-! DEFINITION. The meaning of every operation of opcode_table.json: one arm per constructor of `Instr`. -/
namespace Sys2Proof.Machine

/-- The meaning of an operation. -/
def exec (i : Instr) (s : State) : Host.Outcome State Fault Refusal :=
  match i with
  | .nop => Sys2Proof.Machine.execNop s
  | .submit L payload => Sys2Proof.Machine.execSubmit L payload s
  | .result => Sys2Proof.Machine.execResult s
  | .status => Sys2Proof.Machine.execStatus s
  | .psize => Sys2Proof.Machine.execPsize s
  | .pzero => Sys2Proof.Machine.execPzero s
  | .pcopy => Sys2Proof.Machine.execPcopy s
  | .pstop => Sys2Proof.Machine.execPstop s
  | .plenf => Sys2Proof.Machine.execPlenf s
  | .chunk => Sys2Proof.Machine.execChunk s
  | .init => Sys2Proof.Machine.execInit s
  | .wload => Sys2Proof.Machine.execWload s
  | .wexp => Sys2Proof.Machine.execWexp s
  | .rload => Sys2Proof.Machine.execRload s
  | .round => Sys2Proof.Machine.execRound s
  | .feed => Sys2Proof.Machine.execFeed s
  | .next => Sys2Proof.Machine.execNext s
  | .emit => Sys2Proof.Machine.execEmit s
  | .reset => Sys2Proof.Machine.execReset s

end Sys2Proof.Machine
end

