-- ==== Sys2Proof/WellFormed.lean ====
section
/-!
DEFINITION. Which terms of `Instr` are operations of the engine: the one condition 30_encoding.md
states on operands is that a SUBMIT carries exactly `L` bytes (R71, R73).
-/
namespace Sys2Proof

/-- The operands fit the format: `payload` has exactly `L` bytes (R71: "`L` bytes, `payload[0 .. L-1]`"). -/
def Instr.wf : Instr → Bool
  | .submit L payload => payload.length == L
  | .nop => true
  | .result => true
  | .status => true
  | .psize => true
  | .pzero => true
  | .pcopy => true
  | .pstop => true
  | .plenf => true
  | .chunk => true
  | .init => true
  | .wload => true
  | .wexp => true
  | .rload => true
  | .round => true
  | .feed => true
  | .next => true
  | .emit => true
  | .reset => true

end Sys2Proof
end

