-- ==== Sys2Proof/Decode.lean ====
section
/-!
DEFINITION. Decoder and encoder of the three formats (30_encoding.md R70 to R78, R82).
-/
namespace Sys2Proof

/-- The 4-bit code of a phase (30_encoding.md R75). -/
def Phase.code : Phase → BitVec 4
  | .idle => 0x0
  | .psize => 0x1
  | .pzero => 0x2
  | .pcopy => 0x3
  | .pstop => 0x4
  | .plenf => 0x5
  | .chunk => 0x6
  | .init => 0x7
  | .wload => 0x8
  | .wexp => 0x9
  | .rload => 0xA
  | .round => 0xB
  | .feed => 0xC
  | .next => 0xD
  | .emit => 0xE
  | .reserved => 0xF

/-- The phase a 4-bit code names (30_encoding.md R75). -/
def Phase.ofCode (c : BitVec 4) : Phase :=
  match c.toNat with
  | 0x0 => .idle
  | 0x1 => .psize
  | 0x2 => .pzero
  | 0x3 => .pcopy
  | 0x4 => .pstop
  | 0x5 => .plenf
  | 0x6 => .chunk
  | 0x7 => .init
  | 0x8 => .wload
  | 0x9 => .wexp
  | 0xA => .rload
  | 0xB => .round
  | 0xC => .feed
  | 0xD => .next
  | 0xE => .emit
  | _ => .reserved

/-- The command codes of 30_encoding.md R72. -/
def cmdNop : BitVec 2 := 0b00
/-- Code of SUBMIT (R72). -/
def cmdSubmit : BitVec 2 := 0b01
/-- Code of RESULT (R72). -/
def cmdResult : BitVec 2 := 0b10
/-- Code of STATUS (R72). -/
def cmdStatus : BitVec 2 := 0b11

/-- A command that has no operands (30_encoding.md R71). -/
def decodePlain (i : Instr) (operands : Option (Nat × List Byte)) : Except DecodeError Instr :=
  match operands with
  | none => .ok i
  | some _ => .error .operandsUnexpected

/-- SUBMIT's operands (30_encoding.md R71, R73): the message is exactly `payload[0..L-1]`. -/
def decodeSubmit (operands : Option (Nat × List Byte)) : Except DecodeError Instr :=
  match operands with
  | none => .error .operandsMissing
  | some (L, payload) => if payload.length = L then .ok (.submit L payload) else .error .payloadLength

/-- Rows of format `CMD` (30_encoding.md R71, R72): all four codes are defined. -/
def decodeCmd (code : BitVec 2) (operands : Option (Nat × List Byte)) : Except DecodeError Instr :=
  if code = cmdNop then decodePlain .nop operands
  else if code = cmdSubmit then decodeSubmit operands
  else if code = cmdResult then decodePlain .result operands
  else decodePlain .status operands

/-- Rows of format `UOP` (30_encoding.md R75, R76, R78). -/
def decodePhase : Phase → Except DecodeError Instr
  | .idle => .error .idlePhase
  | .psize => .ok .psize
  | .pzero => .ok .pzero
  | .pcopy => .ok .pcopy
  | .pstop => .ok .pstop
  | .plenf => .ok .plenf
  | .chunk => .ok .chunk
  | .init => .ok .init
  | .wload => .ok .wload
  | .wexp => .ok .wexp
  | .rload => .ok .rload
  | .round => .ok .round
  | .feed => .ok .feed
  | .next => .ok .next
  | .emit => .ok .emit
  | .reserved => .error .reservedPhase

/-- The row of format `SIG` (30_encoding.md R77): the reset line is high. -/
def decodeSig (line : BitVec 1) : Except DecodeError Instr :=
  if line = 1 then .ok .reset else .error .resetInactive

/-- The decoder, total on every selector of every format (30_encoding.md R70). -/
def decode : Selector → Except DecodeError Instr
  | .cmd code operands => decodeCmd code operands
  | .uop phase => decodePhase (Phase.ofCode phase)
  | .sig line => decodeSig line

/-- The encoder, from the same tables (30_encoding.md R72, R75, R77). -/
def encode : Instr → Selector
  | .nop => .cmd cmdNop none
  | .submit L payload => .cmd cmdSubmit (some (L, payload))
  | .result => .cmd cmdResult none
  | .status => .cmd cmdStatus none
  | .psize => .uop (Phase.code .psize)
  | .pzero => .uop (Phase.code .pzero)
  | .pcopy => .uop (Phase.code .pcopy)
  | .pstop => .uop (Phase.code .pstop)
  | .plenf => .uop (Phase.code .plenf)
  | .chunk => .uop (Phase.code .chunk)
  | .init => .uop (Phase.code .init)
  | .wload => .uop (Phase.code .wload)
  | .wexp => .uop (Phase.code .wexp)
  | .rload => .uop (Phase.code .rload)
  | .round => .uop (Phase.code .round)
  | .feed => .uop (Phase.code .feed)
  | .next => .uop (Phase.code .next)
  | .emit => .uop (Phase.code .emit)
  | .reset => .sig 1

/-- A command selector whose operand part is all zeros: `L = 0` and no payload byte for SUBMIT,
nothing for the other three (30_encoding.md R71). -/
def zeroOperandCmd (code : BitVec 2) : Selector :=
  .cmd code (if code = cmdSubmit then some (0, []) else none)

/-- The selector that `nbits` bits of opcode_table.json with value `w` stand for. The table's widths
tell the formats apart: 1 bit `SIG`, 2 bits `CMD`, 4 bits `UOP` (30_encoding.md R82). A width rounded
up to the byte does not; then a value below 4 is read as a command code and a larger one as a PHASE
code (DESIGN CHOICE, log 12). -/
def tableSelector (nbits w : Nat) : Option Selector :=
  match nbits with
  | 1 => if w < 2 then some (.sig (BitVec.ofNat 1 w)) else none
  | 2 => if w < 4 then some (zeroOperandCmd (BitVec.ofNat 2 w)) else none
  | 4 => if w < 16 then some (.uop (BitVec.ofNat 4 w)) else none
  | 8 =>
    if w < 4 then some (zeroOperandCmd (BitVec.ofNat 2 w))
    else if w < 16 then some (.uop (BitVec.ofNat 4 w)) else none
  | _ => none

/-- The operation the decoder reads from an opcode-table word, if any. -/
def decodeTableWord (nbits w : Nat) : Option Instr :=
  match tableSelector nbits w with
  | none => none
  | some e => (decode e).toOption

end Sys2Proof
end

