-- ==== Sys2Proof/Machine/Fetch.lean ====
section
/-!
DEFINITION. Who moves next and with which operation (00_scope.md R15, 30_encoding.md R76, 46_host.md
R152, 70_reset_and_hazards.md R180). Nothing is fetched from a memory (20_memory.md R62): a host
command comes from the environment's schedule, a micro-operation from PHASE.
-/
namespace Sys2Proof.Machine

/-- The engine has the turn: the micro-operation PHASE selects, or in IDLE, where the engine has no
step, no operation presented, which is NOP (00_scope.md R15, 30_encoding.md R72, R76; log 1). -/
def State.engineSelector (s : State) : Selector :=
  if s.busy then .uop s.phase.code else .cmd cmdNop none

/-- The input of the schedule at the head has been taken. -/
def State.withInputs (s : State) (rest : List Input) : State := { s with inputs := rest }

/-- The selector of the next step, and the state with its input taken. A SUBMIT presented while
`BUSY = 1` is held: it stays presented and the engine moves (46_host.md R152, log 2). RESET is taken
in every phase (R180). With no input left the engine has the turn (log 1). -/
def State.fetch (s : State) : Selector × State :=
  match s.inputs with
  | [] => (s.engineSelector, s)
  | .engineTurn :: rest => (s.engineSelector, s.withInputs rest)
  | .resetLine :: rest => (.sig 1, s.withInputs rest)
  | .command code operands :: rest =>
    if code = cmdSubmit ∧ s.busy then (s.engineSelector, s)
    else (.cmd code operands, s.withInputs rest)

/-- What the step answers where the selector names no operation: the reserved phase is stuck
(30_encoding.md R78, U7); a command that is no tuple of R71 is refused by name (log 10). -/
def undecoded (e : DecodeError) : Result :=
  match e with
  | .reservedPhase => .fault .reservedPhase
  | .idlePhase => .refused (.malformedInput .idlePhase)
  | .resetInactive => .refused (.malformedInput .resetInactive)
  | .operandsMissing => .refused (.malformedInput .operandsMissing)
  | .operandsUnexpected => .refused (.malformedInput .operandsUnexpected)
  | .payloadLength => .refused (.malformedInput .payloadLength)

/-- A value of T at which the sequencer stands at the micro-operation `p`: T itself when it is in the
range of R27 for `p`, else the range's first value. PHASE, CI and T together are the engine's program
counter (10_state.md R28). -/
def placeT (p : Phase) (t : Index) : Index :=
  match p with
  | .wload => if t.val ≤ 15 then t else 0
  | .wexp => if 16 ≤ t.val ∧ t.val ≤ 63 then t else 16
  | .round => if t.val ≤ 63 then t else 0
  | .idle => t
  | .psize => t
  | .pzero => t
  | .pcopy => t
  | .pstop => t
  | .plenf => t
  | .chunk => t
  | .init => t
  | .rload => t
  | .feed => t
  | .next => t
  | .emit => t
  | .reserved => t

/-- The state in which the next step takes selector `e`: a command presented (with the engine idle,
where SUBMIT is admitted only then, R152), the sequencer standing at a micro-operation and the engine
having the turn, or the RESET input asserted (log 12). -/
def State.place (s : State) (e : Selector) : State :=
  match e with
  | .cmd code operands =>
    { s with
      inputs := .command code operands :: s.inputs
      phase := if code = cmdSubmit then .idle else s.phase }
  | .uop code =>
    { s with
      inputs := .engineTurn :: s.inputs
      phase := Phase.ofCode code
      t := placeT (Phase.ofCode code) s.t }
  | .sig line => if line = 1 then { s with inputs := .resetLine :: s.inputs } else s

end Sys2Proof.Machine
end

