-- ==== Sys2Proof/Machine/Step.lean ====
section
/-!
DEFINITION. One atomic step of the whole system, host, environment and engine (00_scope.md R15).
-/
namespace Sys2Proof.Machine

/-- One step: the agent that has the turn runs its operation. -/
def step (s : State) : Host.Outcome State Fault Refusal :=
  match decode s.fetch.1 with
  | .ok i => exec i s.fetch.2
  | .error e => undecoded e

/-- `s` with the operation of an opcode-table word placed so that the next step runs it (log 12). -/
def State.withFetchWord (s : State) (nbits w : Nat) : State :=
  match tableSelector nbits w with
  | some e => s.place e
  | none => s

end Sys2Proof.Machine
end

