-- ==== Sys2Proof/Machine/Reference.lean ====
section
/-!
DEFINITION. The functions of whole messages that the spec defines beside the machine: the layout of the
padded block (20_memory.md R51), the schedule of a chunk (43_schedule.md R127), `compress`
(44_compress.md R133) and `SHA256` (45_aggregator.md R144). No step uses them; statements do.
-/
namespace Sys2Proof.Machine

/-- Byte `a` of the padded block of message `m` (20_memory.md R51), `a < P`. The spec defines it for a
message of at most MSG_CAP bytes, so below `2^61` (45_aggregator.md R144). For a longer one it leaves the
length field open and forbids assuming `8 * L mod 2^64` (91_not_in_source.md N8): that this function gives
those bits there, and some byte where `a ≥ P`, is DESIGN CHOICE (log 13), which no step reads and no
statement rests on. -/
def blockByte (m : List Byte) (a : Nat) : Byte :=
  if a < m.length then m.getD a 0
  else if a = m.length then 0x80
  else if a < paddedLen m.length - 8 then 0x00
  else BitVec.ofNat 8 (8 * m.length / 256 ^ (paddedLen m.length - 1 - a))

/-- Loads schedule words `i` of the list from the chunk bytes `b` (43_schedule.md R125). -/
def loadWords (b : Nat → Byte) (w : Vector Word 64) (is : List Nat) : Vector Word 64 :=
  is.foldl (fun w i => wSet w i (packWord (b (4 * i)) (b (4 * i + 1)) (b (4 * i + 2)) (b (4 * i + 3)))) w

/-- Derives schedule words `i` of the list from earlier words (43_schedule.md R126). -/
def expandWords (w : Vector Word 64) (is : List Nat) : Vector Word 64 :=
  is.foldl (fun w i => wSet w i (expandWord (wAt w (i - 16)) (wAt w (i - 15)) (wAt w (i - 7)) (wAt w (i - 2)))) w

/-- The message schedule of the chunk whose bytes are `b 0, …, b 63` (43_schedule.md R127). -/
def schedule (b : Nat → Byte) : Vector Word 64 :=
  expandWords (loadWords b (Vector.replicate 64 0) (List.range 16)) (List.range' 16 48)

/-- The rounds of the list applied to the working registers (44_compress.md R131). -/
def rounds (x : Vector Word 64) (r : Words8) (ts : List Nat) : Words8 :=
  ts.foldl (fun r t => roundWords r (kAt t) (wAt x t)) r

/-- `compress(S, Wd)` (44_compress.md R133). -/
def compress (S : Words8) (x : Vector Word 64) : Words8 := addWords S (rounds x S (List.range 64))

/-- `S_c`, the hash state after `c` chunks of the padded block of `m`, `c ≤ P / 64` (45_aggregator.md R144).
Beyond that, and for a message of `2^61` bytes or more: DESIGN CHOICE, log 13. -/
def hashAfter (m : List Byte) : Nat → Words8
  | 0 => iv
  | c + 1 => compress (hashAfter m c) (schedule (fun k => blockByte m (64 * c + k)))

/-- `SHA256(m)` as eight words, for a message of at most MSG_CAP bytes (45_aggregator.md R144). What it is
for one of `2^61` bytes or more: DESIGN CHOICE, log 13. -/
def sha256 (m : List Byte) : Words8 := hashAfter m (paddedLen m.length / 64)

end Sys2Proof.Machine
end

