-- ==== Sys2Proof/Safety.lean ====
section
/-!
DEFINITION. The terms statements are made in: the invariants of the sequencer, of the two memories and
of the status report (45_aggregator.md R142, 10_state.md R20 to R36), and what a safe step is.
-/
namespace Sys2Proof.Machine

/-- PHASE is one of those in which PLEN is this computation's padded length: from PZERO to EMIT. -/
def Phase.sized : Phase → Bool
  | .idle => false
  | .psize => false
  | .pzero => true
  | .pcopy => true
  | .pstop => true
  | .plenf => true
  | .chunk => true
  | .init => true
  | .wload => true
  | .wexp => true
  | .rload => true
  | .round => true
  | .feed => true
  | .next => true
  | .emit => true
  | .reserved => false

/-- PHASE is one of those from INIT to EMIT (45_aggregator.md R142). -/
def Phase.chunked : Phase → Bool
  | .idle => false
  | .psize => false
  | .pzero => false
  | .pcopy => false
  | .pstop => false
  | .plenf => false
  | .chunk => false
  | .init => true
  | .wload => true
  | .wexp => true
  | .rload => true
  | .round => true
  | .feed => true
  | .next => true
  | .emit => true
  | .reserved => false

/-- T by phase (10_state.md R27): in WLOAD `0..15`, in WEXP `16..63`, in RLOAD `64`, in ROUND `0..63`,
in FEED and NEXT `64`. That it is never above 64 is its type. -/
def indexInPhase (p : Phase) (t : Index) : Prop :=
  (p = .wload → t.val ≤ 15) ∧ (p = .wexp → 16 ≤ t.val ∧ t.val ≤ 63) ∧ (p = .rload → t.val = 64) ∧
  (p = .round → t.val ≤ 63) ∧ (p = .feed → t.val = 64) ∧ (p = .next → t.val = 64)

/-- The sequencer's invariant: the parameters are legal, every register holds a value of its type
(00_scope.md R9), and 45_aggregator.md R142 holds. -/
structure SequencerInv (s : State) : Prop where
  cfg_legal : s.cfg.legal = true
  phase_legal : s.phase ≠ .reserved
  len_le : s.len ≤ s.cfg.msgCap
  plen_blocks : s.plen % 64 = 0
  plen_ge : 64 ≤ s.plen
  plen_le : s.plen ≤ s.cfg.pbCap
  nch_le : s.nch ≤ s.cfg.pbCap / 64
  ci_le : s.ci ≤ s.cfg.pbCap / 64
  index : indexInPhase s.phase s.t
  sized : Phase.sized s.phase = true → s.plen = paddedLen s.len
  chunked : Phase.chunked s.phase = true → s.nch = s.plen / 64 ∧ s.ci < s.nch

/-- Both memories are in canonical form and list no cell outside their space (20_memory.md R50, log 6). -/
structure MemoryInv (s : State) : Prop where
  msg_wf : s.msg.wf = true
  msg_within : s.msg.within s.cfg.msgCap = true
  pb_wf : s.pb.wf = true
  pb_within : s.pb.within s.cfg.pbCap = true

/-- The status report (10_state.md R33, R35, R36; 46_host.md R155): DONE only when idle, without error
and with a digest; an error only when idle; idle with a digest only after a completion or an error. -/
structure ReportInv (s : State) : Prop where
  done_only : s.done = true → s.phase = .idle ∧ s.err = .none ∧ s.dvalid = true
  err_only : s.err ≠ .none → s.phase = .idle
  idle_outcome : s.phase = .idle → s.dvalid = true → s.done = true ∨ s.err ≠ .none

/-- All of them, and no InvariantViolation reported (42_chunker.md R121). -/
structure Inv (s : State) : Prop where
  sequencer : SequencerInv s
  memory : MemoryInv s
  report : ReportInv s
  no_violation : s.err ≠ .invariantViolation

/-- The next input, if it is a command, is a command tuple of 30_encoding.md R71. -/
def State.inputWellFormed (s : State) : Bool :=
  match s.inputs with
  | .command code operands :: _ => (decode (.cmd code operands)).toBool
  | _ => true

/-- The fields a micro-operation's control depends on (45_aggregator.md R141): the sequencer's registers,
the lengths and the parameters, but no message byte, no W, no working register, no HS. -/
structure Control where
  phase : Phase
  t : Index
  ci : Nat
  nch : Nat
  plen : Nat
  len : Nat
  cfg : Params
  inputs : List Input
  deriving DecidableEq, Repr

/-- The control part of a state. -/
def State.control (s : State) : Control :=
  { phase := s.phase, t := s.t, ci := s.ci, nch := s.nch, plen := s.plen, len := s.len, cfg := s.cfg,
    inputs := s.inputs }

/-- `n` steps of the machine, stopping at the first fault or refusal. -/
def stepN : Nat → State → Result
  | 0, s => .next s
  | n + 1, s =>
    match step s with
    | .next t => stepN n t
    | .fault r => .fault r
    | .refused r => .refused r

end Sys2Proof.Machine
end

