-- ==== Sys2Proof/Certificates/Slice0/Obligations.lean ====
section
/-!
DEFINITION. The statements for the provers, from the numbered rules of spec/. A frame is written by
putting the written fields back: an equation `{ t with … } = s` says that every field not named in it
(every register, every flag, every byte of a memory not named) is unchanged.
-/
open Sys2Proof Sys2Proof.Machine

/-! ### Encoding (30_encoding.md) -/

/-- Decoding the encoding of any well-formed operation gives it back, operands included (R70 to R77). -/
def Obligations.DecodeOfEncodeIsIdentity : Prop :=
  ∀ i : Instr, i.wf = true → decode (encode i) = .ok i

/-- Whatever the decoder accepts is well-formed and is the encoding of what it reads: no two selectors
name the same operation and no payload byte is dropped (R70 to R77). -/
def Obligations.EncodeOfDecodeIsIdentity : Prop :=
  ∀ (e : Selector) (i : Instr), decode e = .ok i → i.wf = true ∧ encode i = e

/-- The codes of R72 and R75, written out. -/
def Obligations.SpecCodesDecode : Prop :=
  (decode (.cmd 0b00 none) = .ok .nop ∧
    decode (.cmd 0b01 (some (3, [0x61, 0x62, 0x63]))) = .ok (.submit 3 [0x61, 0x62, 0x63]) ∧
    decode (.cmd 0b10 none) = .ok .result ∧ decode (.cmd 0b11 none) = .ok .status) ∧
  (decode (.uop 0x0) = .error .idlePhase ∧ decode (.uop 0x1) = .ok .psize ∧
    decode (.uop 0x2) = .ok .pzero ∧ decode (.uop 0x3) = .ok .pcopy ∧
    decode (.uop 0x4) = .ok .pstop ∧ decode (.uop 0x5) = .ok .plenf ∧
    decode (.uop 0x6) = .ok .chunk ∧ decode (.uop 0x7) = .ok .init ∧
    decode (.uop 0x8) = .ok .wload ∧ decode (.uop 0x9) = .ok .wexp ∧
    decode (.uop 0xA) = .ok .rload ∧ decode (.uop 0xB) = .ok .round ∧
    decode (.uop 0xC) = .ok .feed ∧ decode (.uop 0xD) = .ok .next ∧
    decode (.uop 0xE) = .ok .emit ∧ decode (.uop 0xF) = .error .reservedPhase)

/-- A command is refused by name exactly when it is no tuple of R71: a SUBMIT must carry `L` and exactly
`L` bytes, the other three codes carry nothing (log 10, DEDUCED). -/
def Obligations.CommandTuplesAccepted : Prop :=
  ∀ (code : BitVec 2) (operands : Option (Nat × List Byte)),
    (∃ i, decode (.cmd code operands) = .ok i) ↔
      (code = 0b01 ∧ ∃ L payload, operands = some (L, payload) ∧ payload.length = L) ∨
      (code ≠ 0b01 ∧ operands = none)

/-! ### The step (00_scope.md R15, 30_encoding.md R76, 46_host.md R152) -/

/-- When the selector that has the turn decodes to `i`, the step is `exec i` on the state with the input
taken, and `i` is well-formed. -/
def Obligations.StepRunsDecodedOperation : Prop :=
  ∀ (s : State) (i : Instr), decode s.fetch.1 = .ok i → step s = exec i s.fetch.2 ∧ i.wf = true

/-- With no host step to take, the micro-operation PHASE selects runs, and in IDLE the engine has no
step, so nothing changes (R76). `p.code` and the decoder are those of the encoding statements. -/
def Obligations.PhaseSelectsTheMicroOperation : Prop :=
  ∀ (s : State), s.inputs = [] →
    (∀ i, s.phase ≠ .idle → decode (.uop s.phase.code) = .ok i → step s = exec i s) ∧
    (s.phase = .idle → step s = .next s)

/-- What the model's schedule does around `exec` (log 1): the input is taken, then an engine turn is a
step with no input left, the RESET input is RESET in every phase, a command is the command it decodes
to (SUBMIT only when idle), and a malformed one is refused by name with nothing done (log 10). -/
def Obligations.ScheduleSaysWhoMoves : Prop :=
  ∀ (s : State) (rest : List Input),
    (s.inputs = .engineTurn :: rest → ∀ i, s.phase ≠ .idle → decode (.uop s.phase.code) = .ok i →
      step s = exec i { s with inputs := rest }) ∧
    (s.inputs = .engineTurn :: rest → s.phase = .idle → step s = .next { s with inputs := rest }) ∧
    (s.inputs = .resetLine :: rest → step s = exec .reset { s with inputs := rest }) ∧
    (∀ code operands i, s.inputs = .command code operands :: rest →
      (code = 0b01 → s.phase = .idle) → decode (.cmd code operands) = .ok i →
      step s = exec i { s with inputs := rest }) ∧
    (∀ code operands e, s.inputs = .command code operands :: rest →
      (code = 0b01 → s.phase = .idle) → decode (.cmd code operands) = .error e →
      step s = .refused (.malformedInput e))

/-- A SUBMIT while `BUSY = 1` is held (R152): executing it changes nothing, and presented to the machine
it stays presented while the engine takes exactly the step it would take without it (log 2, DEDUCED). -/
def Obligations.SubmitIsHeldWhileBusy : Prop :=
  (∀ (s : State) (L : Nat) (payload : List Byte), s.phase ≠ .idle →
    exec (.submit L payload) s = .next s) ∧
  (∀ (s t : State) (operands : Option (Nat × List Byte)) (rest : List Input),
    s.phase ≠ .idle → s.inputs = .command 0b01 operands :: rest →
    step { s with inputs := [] } = .next t → step s = .next { t with inputs := s.inputs })

/-- `PHASE = 0xF` is stuck: the engine has no step, BUSY reads 1, the read commands are accepted and
RESET leaves it (R78, U7; log 9). -/
def Obligations.ReservedPhaseIsStuck : Prop :=
  ∀ (s : State), s.phase = .reserved →
    (s.inputs = [] → step s = .fault .reservedPhase) ∧
    (∀ rest, s.inputs = .engineTurn :: rest → step s = .fault .reservedPhase) ∧
    s.statusWord.getLsbD 1 = true ∧
    (∀ rest, s.inputs = .resetLine :: rest → ∃ t, step s = .next t ∧ t.phase = .idle)

/-! ### Host commands (46_host.md) -/

/-- NOP changes nothing and returns nothing, in every phase (R150). -/
def Obligations.NopChangesNothing : Prop :=
  ∀ s : State, exec .nop s = .next s

/-- An admitted SUBMIT: over-long, only ERR and DONE change; else the `L` bytes are staged, LEN, ERR,
DONE and PHASE are written and nothing else changes, DG and DVALID included (R151). -/
def Obligations.SubmitChecksLengthAndStages : Prop :=
  ∀ (s : State) (L : Nat) (payload : List Byte), s.phase = .idle → payload.length = L →
    (s.cfg.msgCap < L →
      exec (.submit L payload) s = .next { s with err := .lengthExceeded, done := false }) ∧
    (L ≤ s.cfg.msgCap → ∃ t, exec (.submit L payload) s = .next t ∧
      (∀ a, t.msg.read a = if h : a < payload.length then payload[a] else s.msg.read a) ∧
      t.len = L ∧ t.err = .none ∧ t.done = false ∧ t.phase = .psize ∧
      { t with msg := s.msg, len := s.len, err := s.err, done := s.done, phase := s.phase } = s)

/-- With `DVALID = 1`, RESULT returns the 32 bytes of DG, word 0 first, each word most significant byte
first, and changes nothing else, in every phase (R153, R55). -/
def Obligations.ResultReturnsDigestBigEndian : Prop :=
  ∀ s : State, s.dvalid = true → ∃ bytes : List Byte,
    exec .result s = .next { s with replies := s.replies ++ [.digest bytes] } ∧
    bytes.length = 32 ∧
    ∀ (i : Fin 8) (j : Fin 4),
      (bytes.getD (4 * i.val + j.val) 0).toNat = (s.dg.get i).toNat / 256 ^ (3 - j.val) % 256

/-- With `DVALID = 0`, RESULT returns 32 bytes drawn afresh and changes nothing but the draw counter
(R154 (a), U1). The bytes are the model's free value (log 4), so nothing more is said of them. -/
def Obligations.ResultBeforeAnyDigestReturnsADraw : Prop :=
  ∀ s : State, s.dvalid = false → ∃ bytes : List Byte, bytes.length = 32 ∧
    exec .result s = .next { s with replies := s.replies ++ [.digest bytes], draws := s.draws + 1 }

/-- STATUS returns `0b00 || ERR || 0 || DVALID || BUSY || DONE` and clears nothing; where the report
invariant holds (`ReportInvariantIsKept`) the word is one of the ten of R155, in particular not `0x04`. -/
def Obligations.StatusReturnsTheStatusWord : Prop :=
  ∀ s : State, ∃ x : BitVec 8,
    exec .status s = .next { s with replies := s.replies ++ [.status x] } ∧
    x.getLsbD 0 = s.done ∧ x.getLsbD 1 = decide (s.phase ≠ .idle) ∧ x.getLsbD 2 = s.dvalid ∧
    x.getLsbD 3 = false ∧ x.getLsbD 6 = false ∧ x.getLsbD 7 = false ∧
    x.toNat / 16 % 4 = (match s.err with
      | .none => 0
      | .lengthExceeded => 1
      | .allocationFailure => 2
      | .invariantViolation => 3) ∧
    (ReportInv s → x ∈ ([0x00, 0x02, 0x10, 0x20, 0x30, 0x06, 0x05, 0x14, 0x24, 0x34] : List (BitVec 8)))

/-! ### Reset (70_reset_and_hazards.md) -/

/-- RESET, in every phase: IDLE, DONE, DVALID and ERR cleared, the status word 0x00; the host's replies,
the pending inputs and the parameters are not engine state and stay (R180). The unspecified rest holds
values of its types wherever the parameters are legal (log 4, the model's draws). -/
def Obligations.ResetIdlesAndClearsTheReport : Prop :=
  ∀ s : State, ∃ t, exec .reset s = .next t ∧
    t.phase = .idle ∧ t.done = false ∧ t.dvalid = false ∧ t.err = .none ∧ t.statusWord = 0x00 ∧
    t.cfg = s.cfg ∧ t.inputs = s.inputs ∧ t.replies = s.replies ∧
    (s.cfg.legal = true → SequencerInv t ∧ MemoryInv t)

/-- After reset, whatever the parameters: PHASE IDLE, DONE, DVALID and ERR 0, status word 0x00 (R181).
The other reset values are the model's (log 5) and are not stated. -/
def Obligations.ResetStateReport : Prop :=
  ∀ p : Params, (State.resetWith p).phase = .idle ∧ (State.resetWith p).done = false ∧
    (State.resetWith p).dvalid = false ∧ (State.resetWith p).err = .none ∧
    (State.resetWith p).statusWord = 0x00 ∧ State.reset = State.resetWith Config.params ∧
    Config.params.legal = true

/-! ### Padding and encoding unit (41_encoder.md) -/

/-- PSIZE: `P` is the smallest multiple of 512 bits that is at least `8 * L + 1 + 64`, in bytes
`64 * ((L + 8) div 64 + 1)`; PLEN takes it if it fits PB, else the abort with code 2 and PLEN is not
written (R110). -/
def Obligations.PsizeComputesLeastPaddedLength : Prop :=
  ∀ s : State, ∃ P : Nat,
    (8 * P) % 512 = 0 ∧ 8 * s.len + 1 + 64 ≤ 8 * P ∧
    (∀ Q, Q % 512 = 0 → 8 * s.len + 1 + 64 ≤ Q → 8 * P ≤ Q) ∧
    P = 64 * ((s.len + 8) / 64 + 1) ∧
    (s.cfg.pbCap < P → exec .psize s = .next { s with err := .allocationFailure, phase := .idle }) ∧
    (P ≤ s.cfg.pbCap → exec .psize s = .next { s with plen := P, phase := .pzero })

/-- With the default `PB_CAP = PB_CAP_FULL` an admitted message never aborts in PSIZE (R8, R162). -/
def Obligations.FullBufferNeverAborts : Prop :=
  ∀ s : State, s.cfg.pbCap = 64 * ((s.cfg.msgCap + 8) / 64 + 1) → s.len ≤ s.cfg.msgCap →
    ∃ t, exec .psize s = .next t ∧ t.err = s.err ∧ t.phase = .pzero

/-- The abort writes ERR and PHASE and nothing else, in both operations that raise it: PSIZE when the
padded length exceeds PB, CHUNK when PLEN is no multiple of 64 (R164). -/
def Obligations.AbortWritesErrAndPhaseOnly : Prop :=
  ∀ s : State,
    (s.cfg.pbCap < 64 * ((s.len + 8) / 64 + 1) → ∃ t, exec .psize s = .next t ∧
      t.err = .allocationFailure ∧ t.phase = .idle ∧ { t with err := s.err, phase := s.phase } = s) ∧
    (s.plen % 64 ≠ 0 → ∃ t, exec .chunk s = .next t ∧
      t.err = .invariantViolation ∧ t.phase = .idle ∧ { t with err := s.err, phase := s.phase } = s)

/-- PZERO: every cell of `PB[0..PLEN)` becomes 0x00, cells from PLEN on keep their values (R111). -/
def Obligations.PzeroZeroFillsTheBlock : Prop :=
  ∀ s : State, s.plen ≤ s.cfg.pbCap → ∃ t, exec .pzero s = .next t ∧
    (∀ a, t.pb.read a = if a < s.plen then 0x00 else s.pb.read a) ∧ t.phase = .pcopy ∧
    { t with pb := s.pb, phase := s.phase } = s

/-- PCOPY: `PB[0..LEN)` becomes `MSG[0..LEN)`, every byte value included (R112). -/
def Obligations.PcopyCopiesTheMessage : Prop :=
  ∀ s : State, s.len ≤ s.cfg.msgCap → s.len ≤ s.cfg.pbCap → ∃ t, exec .pcopy s = .next t ∧
    (∀ a, t.pb.read a = if a < s.len then s.msg.read a else s.pb.read a) ∧ t.phase = .pstop ∧
    { t with pb := s.pb, phase := s.phase } = s

/-- PSTOP: 0x80 is ored into `PB[LEN]` and no other cell changes (R113). -/
def Obligations.PstopSetsTheStopBit : Prop :=
  ∀ s : State, s.len < s.cfg.pbCap → ∃ t, exec .pstop s = .next t ∧
    (∀ a, t.pb.read a = if a = s.len then s.pb.read s.len ||| 0x80 else s.pb.read a) ∧
    t.phase = .plenf ∧ { t with pb := s.pb, phase := s.phase } = s

/-- PLENF: `PB[PLEN-8+j]` becomes byte `j` of the 64-bit big-endian bit length `8 * LEN`, and no other
cell changes (R114). -/
def Obligations.PlenfWritesTheBitLength : Prop :=
  ∀ s : State, 8 * s.len < 2 ^ 64 → 8 ≤ s.plen → s.plen ≤ s.cfg.pbCap → ∃ t, exec .plenf s = .next t ∧
    (∀ j, j < 8 → (t.pb.read (s.plen - 8 + j)).toNat = 8 * s.len / 256 ^ (7 - j) % 256) ∧
    (∀ a, a < s.plen - 8 ∨ s.plen ≤ a → t.pb.read a = s.pb.read a) ∧ t.phase = .chunk ∧
    { t with pb := s.pb, phase := s.phase } = s

/-- The encoder as a whole: from PSIZE with a message that fits, five steps leave in `PB[0..PLEN)` the
padded block of 20_memory.md R51 and 41_encoder.md R115: the message, 0x80, zeros, the bit length. -/
def Obligations.EncoderProducesThePaddedBlock : Prop :=
  ∀ (s : State) (P : Nat), s.phase = .psize → s.inputs = [] → s.cfg.legal = true →
    s.len ≤ s.cfg.msgCap → P = 64 * ((s.len + 8) / 64 + 1) → P ≤ s.cfg.pbCap →
    ∃ t, stepN 5 s = .next t ∧ t.phase = .chunk ∧ t.plen = P ∧ P % 64 = 0 ∧ s.len + 9 ≤ P ∧
      (∀ a, a < s.len → t.pb.read a = s.msg.read a) ∧ t.pb.read s.len = 0x80 ∧
      (∀ a, s.len < a → a < P - 8 → t.pb.read a = 0x00) ∧
      (∀ j, j < 8 → (t.pb.read (P - 8 + j)).toNat = 8 * s.len / 256 ^ (7 - j) % 256) ∧
      (∀ a, P ≤ a → t.pb.read a = s.pb.read a) ∧
      { t with pb := s.pb, plen := s.plen, phase := s.phase } = s

/-! ### Chunker (42_chunker.md) and Aggregator (45_aggregator.md) -/

/-- CHUNK: chunk count and chunk 0 when PLEN is a multiple of 64, else the abort with code 3 (R120). -/
def Obligations.ChunkCountsTheChunks : Prop :=
  ∀ s : State,
    (∀ n, s.plen = 64 * n → exec .chunk s = .next { s with nch := n, ci := 0, phase := .init }) ∧
    ((∀ n, s.plen ≠ 64 * n) →
      exec .chunk s = .next { s with err := .invariantViolation, phase := .idle })

/-- INIT: HS takes the eight IV words, T 0, PHASE WLOAD, and nothing else changes (R140, R101). -/
def Obligations.InitLoadsTheIv : Prop :=
  ∀ s : State, ∃ t, exec .init s = .next t ∧
    t.hs = ⟨0x6a09e667, 0xbb67ae85, 0x3c6ef372, 0xa54ff53a, 0x510e527f, 0x9b05688c, 0x1f83d9ab, 0x5be0cd19⟩ ∧
    t.t = 0 ∧ t.phase = .wload ∧ { t with hs := s.hs, t := s.t, phase := s.phase } = s

/-- NEXT: the next chunk with T 0, or EMIT with CI and T unchanged; HS is not touched (R145). -/
def Obligations.NextAdvancesOrFinishes : Prop :=
  ∀ s : State,
    (s.ci + 1 < s.nch → exec .next s = .next { s with ci := s.ci + 1, t := 0, phase := .wload }) ∧
    (s.nch ≤ s.ci + 1 → exec .next s = .next { s with phase := .emit })

/-- EMIT: DG takes HS whole, DVALID and DONE become 1 and PHASE IDLE in one step; nothing else changes,
ERR included (R146). -/
def Obligations.EmitPublishesTheDigest : Prop :=
  ∀ s : State, ∃ t, exec .emit s = .next t ∧ (∀ i, t.dg.get i = s.hs.get i) ∧
    t.dvalid = true ∧ t.done = true ∧ t.phase = .idle ∧
    { t with dg := s.dg, dvalid := s.dvalid, done := s.done, phase := s.phase } = s

/-- The transition graph, row by row of R143: for the micro-operation PHASE selects, the value of PHASE
after the step and the counters CI and T (written as the row says, unchanged where it says none); and the
rows of SUBMIT, of the other commands in IDLE, and of RESET. -/
def Obligations.TransitionGraph : Prop :=
  (∀ s t : State, s.inputs = [] → step s = .next t →
    (s.phase = .idle → t.phase = .idle) ∧
    (s.phase = .psize → 64 * ((s.len + 8) / 64 + 1) ≤ s.cfg.pbCap →
      t.phase = .pzero ∧ t.ci = s.ci ∧ t.t = s.t) ∧
    (s.phase = .psize → s.cfg.pbCap < 64 * ((s.len + 8) / 64 + 1) →
      t.phase = .idle ∧ t.err = .allocationFailure ∧ t.ci = s.ci ∧ t.t = s.t) ∧
    (s.phase = .pzero → t.phase = .pcopy ∧ t.ci = s.ci ∧ t.t = s.t) ∧
    (s.phase = .pcopy → t.phase = .pstop ∧ t.ci = s.ci ∧ t.t = s.t) ∧
    (s.phase = .pstop → t.phase = .plenf ∧ t.ci = s.ci ∧ t.t = s.t) ∧
    (s.phase = .plenf → t.phase = .chunk ∧ t.ci = s.ci ∧ t.t = s.t) ∧
    (s.phase = .chunk → s.plen % 64 = 0 → t.phase = .init ∧ t.ci = 0 ∧ t.t = s.t) ∧
    (s.phase = .chunk → s.plen % 64 ≠ 0 →
      t.phase = .idle ∧ t.err = .invariantViolation ∧ t.ci = s.ci ∧ t.t = s.t) ∧
    (s.phase = .init → t.phase = .wload ∧ t.t = 0 ∧ t.ci = s.ci) ∧
    (s.phase = .wload → s.t.val < 15 → t.phase = .wload ∧ t.t.val = s.t.val + 1 ∧ t.ci = s.ci) ∧
    (s.phase = .wload → s.t.val = 15 → t.phase = .wexp ∧ t.t = 16 ∧ t.ci = s.ci) ∧
    (s.phase = .wexp → s.t.val < 63 → t.phase = .wexp ∧ t.t.val = s.t.val + 1 ∧ t.ci = s.ci) ∧
    (s.phase = .wexp → s.t.val = 63 → t.phase = .rload ∧ t.t = 64 ∧ t.ci = s.ci) ∧
    (s.phase = .rload → t.phase = .round ∧ t.t = 0 ∧ t.ci = s.ci) ∧
    (s.phase = .round → s.t.val < 63 → t.phase = .round ∧ t.t.val = s.t.val + 1 ∧ t.ci = s.ci) ∧
    (s.phase = .round → s.t.val = 63 → t.phase = .feed ∧ t.t = 64 ∧ t.ci = s.ci) ∧
    (s.phase = .feed → t.phase = .next ∧ t.ci = s.ci ∧ t.t = s.t) ∧
    (s.phase = .next → s.ci + 1 < s.nch → t.phase = .wload ∧ t.ci = s.ci + 1 ∧ t.t = 0) ∧
    (s.phase = .next → s.nch ≤ s.ci + 1 → t.phase = .emit ∧ t.ci = s.ci ∧ t.t = s.t) ∧
    (s.phase = .emit → t.phase = .idle ∧ t.done = true ∧ t.ci = s.ci ∧ t.t = s.t)) ∧
  (∀ s t : State, s.phase = .idle →
    (∀ L payload, exec (.submit L payload) s = .next t →
      t.phase = (if L ≤ s.cfg.msgCap then .psize else .idle) ∧ t.ci = s.ci ∧ t.t = s.t) ∧
    (∀ i, i ∈ ([.nop, .result, .status] : List Instr) → exec i s = .next t →
      t.phase = .idle ∧ t.ci = s.ci ∧ t.t = s.t)) ∧
  (∀ s t : State, exec .reset s = .next t → t.phase = .idle)

/-! ### Message-schedule expander (43_schedule.md) -/

/-- WLOAD: `W[T]` becomes the big-endian word of the four cells at `64 * CI + 4 * T`; T and PHASE advance
and nothing else changes, the other 63 words and PB included (R125). -/
def Obligations.WloadPacksAChunkWord : Prop :=
  ∀ s : State, s.t.val ≤ 15 → 64 * s.ci + 4 * s.t.val + 4 ≤ s.cfg.pbCap → ∃ t, exec .wload s = .next t ∧
    (wAt t.w s.t.val).toNat = (s.pb.read (64 * s.ci + 4 * s.t.val)).toNat * 2 ^ 24 +
      (s.pb.read (64 * s.ci + 4 * s.t.val + 1)).toNat * 2 ^ 16 +
      (s.pb.read (64 * s.ci + 4 * s.t.val + 2)).toNat * 2 ^ 8 +
      (s.pb.read (64 * s.ci + 4 * s.t.val + 3)).toNat ∧
    (∀ i : Fin 64, i.val ≠ s.t.val → t.w[i.val] = s.w[i.val]) ∧
    t.t.val = s.t.val + 1 ∧ t.phase = (if s.t.val = 15 then .wexp else .wload) ∧
    { t with w := s.w, t := s.t, phase := s.phase } = s

/-- WEXP: `W[T]` becomes `W[T-16] + sigma0(W[T-15]) + W[T-7] + sigma1(W[T-2])` modulo `2^32`; T and PHASE
advance and nothing else changes (R126; sigma0 and sigma1 are those of R95 and R96). -/
def Obligations.WexpDerivesAScheduleWord : Prop :=
  ∀ s : State, 16 ≤ s.t.val → s.t.val ≤ 63 → ∃ t, exec .wexp s = .next t ∧
    (wAt t.w s.t.val).toNat = ((wAt s.w (s.t.val - 16)).toNat + (sigma0 (wAt s.w (s.t.val - 15))).toNat +
      (wAt s.w (s.t.val - 7)).toNat + (sigma1 (wAt s.w (s.t.val - 2))).toNat) % 2 ^ 32 ∧
    (∀ i : Fin 64, i.val ≠ s.t.val → t.w[i.val] = s.w[i.val]) ∧
    t.t.val = s.t.val + 1 ∧ t.phase = (if s.t.val = 63 then .rload else .wexp) ∧
    { t with w := s.w, t := s.t, phase := s.phase } = s

/-- The schedule of a chunk: from WLOAD with T 0, sixty-four engine steps leave in W the schedule of the
chunk's 64 bytes (its first 16 words packed, the others by the recurrence), T 64 and PHASE RLOAD, and
nothing else changed; the whole of W is the function `schedule` of the bytes (43_schedule.md, schedule
postcondition). -/
def Obligations.ExpanderProducesTheSchedule : Prop :=
  ∀ s : State, s.phase = .wload → s.t = 0 → s.inputs = [] → 64 * s.ci + 64 ≤ s.cfg.pbCap →
    ∃ t, stepN 64 s = .next t ∧ t.phase = .rload ∧ t.t = 64 ∧
      (∀ i, i < 16 → wAt t.w i = packWord (s.pb.read (64 * s.ci + 4 * i))
        (s.pb.read (64 * s.ci + 4 * i + 1)) (s.pb.read (64 * s.ci + 4 * i + 2))
        (s.pb.read (64 * s.ci + 4 * i + 3))) ∧
      (∀ i, 16 ≤ i → i < 64 → wAt t.w i =
        wAt t.w (i - 16) + sigma0 (wAt t.w (i - 15)) + wAt t.w (i - 7) + sigma1 (wAt t.w (i - 2))) ∧
      t.w = schedule (fun k => s.pb.read (64 * s.ci + k)) ∧
      { t with w := s.w, t := s.t, phase := s.phase } = s

/-! ### Mixing core and accumulator (44_compress.md) -/

/-- RLOAD: `a..h` take `HS[0..7]`, T 0, PHASE ROUND; nothing else changes, HS included (R130). -/
def Obligations.RloadCopiesTheHashState : Prop :=
  ∀ s : State, ∃ t, exec .rload s = .next t ∧ (∀ i, t.r.get i = s.hs.get i) ∧ t.t = 0 ∧
    t.phase = .round ∧ { t with r := s.r, t := s.t, phase := s.phase } = s

/-- ROUND: with `T1` and `T2` the sums of R131 modulo `2^32`, the eight registers shift simultaneously,
`e = d + T1`, `a = T1 + T2`; T and PHASE advance and nothing else changes, HS and W included (R131). -/
def Obligations.RoundMixesTheRegisters : Prop :=
  ∀ s : State, s.t.val ≤ 63 → ∃ t, ∃ T1 T2 : Nat, exec .round s = .next t ∧
    T1 = ((s.r.get 7).toNat + (bigSigma1 (s.r.get 4)).toNat +
      (ch (s.r.get 4) (s.r.get 5) (s.r.get 6)).toNat + (kAt s.t.val).toNat + (wAt s.w s.t.val).toNat) % 2 ^ 32 ∧
    T2 = ((bigSigma0 (s.r.get 0)).toNat + (maj (s.r.get 0) (s.r.get 1) (s.r.get 2)).toNat) % 2 ^ 32 ∧
    t.r.get 7 = s.r.get 6 ∧ t.r.get 6 = s.r.get 5 ∧ t.r.get 5 = s.r.get 4 ∧
    (t.r.get 4).toNat = ((s.r.get 3).toNat + T1) % 2 ^ 32 ∧
    t.r.get 3 = s.r.get 2 ∧ t.r.get 2 = s.r.get 1 ∧ t.r.get 1 = s.r.get 0 ∧
    (t.r.get 0).toNat = (T1 + T2) % 2 ^ 32 ∧
    t.t.val = s.t.val + 1 ∧ t.phase = (if s.t.val = 63 then .feed else .round) ∧
    { t with r := s.r, t := s.t, phase := s.phase } = s

/-- FEED: `HS[i]` becomes `HS[i] + r[i]` modulo `2^32`, the eight sums independent; PHASE NEXT and nothing
else changes, `a..h` included (R132). -/
def Obligations.FeedAddsIntoTheHashState : Prop :=
  ∀ s : State, ∃ t, exec .feed s = .next t ∧
    (∀ i, (t.hs.get i).toNat = ((s.hs.get i).toNat + (s.r.get i).toNat) % 2 ^ 32) ∧
    t.phase = .next ∧ { t with hs := s.hs, phase := s.phase } = s

/-- The compression of a chunk: from RLOAD, sixty-six engine steps leave `HS = compress(HS, W)`, PHASE
NEXT, T 64, and everything but the working registers unchanged (44_compress.md, compression
postcondition; `compress` is R133's function). -/
def Obligations.CompressionFoldsTheSchedule : Prop :=
  ∀ s : State, s.phase = .rload → s.inputs = [] →
    ∃ t, stepN 66 s = .next t ∧ t.hs = compress s.hs s.w ∧ t.phase = .next ∧ t.t = 64 ∧
      { t with hs := s.hs, r := s.r, t := s.t, phase := s.phase } = s

/-! ### The computation as a whole (45_aggregator.md) -/

/-- From any idle state of an instance with legal parameters, a SUBMIT of `m` that fits and then exactly
`8 + 131 * NCH` engine steps end with `DG = SHA256(m)`, DVALID and DONE 1, ERR 0, the message in MSG, and
IDLE; the engine is busy at every step before (45_aggregator.md, whole-computation result, termination
and step count). Nothing is assumed of the hidden registers, so the digest is a function of `m` alone. -/
def Obligations.SubmitComputesSha256 : Prop :=
  ∀ (s : State) (m : List Byte) (n : Nat), s.phase = .idle → s.cfg.legal = true →
    s.inputs = [.command 0b01 (some (m.length, m))] → m.length ≤ s.cfg.msgCap →
    64 * ((m.length + 8) / 64 + 1) ≤ s.cfg.pbCap → n = 1 + (8 + 131 * ((m.length + 8) / 64 + 1)) →
    (∃ t, stepN n s = .next t ∧ t.phase = .idle ∧ t.dg = sha256 m ∧ t.dvalid = true ∧ t.done = true ∧
      t.err = .none ∧ t.len = m.length ∧ (∀ a, a < m.length → t.msg.read a = m.getD a 0) ∧
      t.inputs = [] ∧ t.replies = s.replies ∧ t.cfg = s.cfg) ∧
    (∀ k, 1 ≤ k → k < n → ∃ u, stepN k s = .next u ∧ u.phase ≠ .idle)

/-- A request whose padded block does not fit PB ends one engine step after its SUBMIT: IDLE with
`ERR = 2` and DONE 0, no byte of PB written, and the previous digest, its DVALID and the responses as they
were (60_exceptions.md, entry of the abort; 45_aggregator.md, step count of an abort). -/
def Obligations.OversizedRequestKeepsTheDigest : Prop :=
  ∀ (s : State) (m : List Byte), s.phase = .idle →
    s.inputs = [.command 0b01 (some (m.length, m))] → m.length ≤ s.cfg.msgCap →
    s.cfg.pbCap < 64 * ((m.length + 8) / 64 + 1) →
    ∃ t, stepN 2 s = .next t ∧ t.phase = .idle ∧ t.err = .allocationFailure ∧ t.done = false ∧
      t.dg = s.dg ∧ t.dvalid = s.dvalid ∧ t.pb = s.pb ∧ t.plen = s.plen ∧ t.replies = s.replies ∧
      t.inputs = []

/-! ### Invariants and whole-machine rules -/

/-- The sequencer's invariant (45_aggregator.md, invariants of the sequencer; 00_scope.md, derived
widths) is kept by every step, commands and RESET included. -/
def Obligations.SequencerInvariantIsKept : Prop :=
  ∀ s t : State, SequencerInv s → step s = .next t → SequencerInv t

/-- Both memories stay in canonical form and within their spaces at every step (log 6, the model's form). -/
def Obligations.MemoryInvariantIsKept : Prop :=
  ∀ s t : State, MemoryInv s → step s = .next t → MemoryInv t

/-- The report invariant (10_state.md section 6) is kept by every step: DONE never stands beside a busy
engine or an error, an error never beside a busy engine, and an idle engine that has a digest has either
completed or failed its last request. -/
def Obligations.ReportInvariantIsKept : Prop :=
  ∀ s t : State, ReportInv s → step s = .next t → ReportInv t

/-- The three together, and `ERR != 3`, are kept: the InvariantViolation of CHUNK is unreachable
(42_chunker.md, second rule). -/
def Obligations.InvariantViolationNeverReported : Prop :=
  ∀ s t : State, Inv s → step s = .next t → Inv t ∧ t.err ≠ .invariantViolation

/-- The state after reset has the invariant, whatever legal parameters the instance has. -/
def Obligations.ResetStateHasTheInvariant : Prop :=
  ∀ p : Params, p.legal = true → Inv (State.resetWith p)

/-- From a state with the invariant the machine always has a next state, unless the host presents a
tuple that is no command: every index and address of every rule is in range (20_memory.md, bounds). -/
def Obligations.NoStepFaultsUnderTheInvariant : Prop :=
  ∀ s : State, Inv s → s.inputWellFormed = true → ∃ t, step s = .next t

/-- Each item of state changes only by the operations the table of 10_state.md section 1 names as its
writers, and the parameters by none. -/
def Obligations.OnlyTheNamedWritersWrite : Prop :=
  ∀ (i : Instr) (s t : State), exec i s = .next t →
    (t.msg ≠ s.msg → (∃ L p, i = .submit L p) ∨ i = .reset) ∧
    (t.len ≠ s.len → (∃ L p, i = .submit L p) ∨ i = .reset) ∧
    (t.pb ≠ s.pb → i ∈ [.pzero, .pcopy, .pstop, .plenf, .reset]) ∧
    (t.plen ≠ s.plen → i ∈ [.psize, .reset]) ∧
    (t.nch ≠ s.nch → i ∈ [.chunk, .reset]) ∧
    (t.ci ≠ s.ci → i ∈ [.chunk, .next, .reset]) ∧
    (t.phase ≠ s.phase → i ∉ [.nop, .result, .status]) ∧
    (t.t ≠ s.t → i ∈ [.init, .wload, .wexp, .rload, .round, .next, .reset]) ∧
    (t.w ≠ s.w → i ∈ [.wload, .wexp, .reset]) ∧
    (t.r ≠ s.r → i ∈ [.rload, .round, .reset]) ∧
    (t.hs ≠ s.hs → i ∈ [.init, .feed, .reset]) ∧
    (t.dg ≠ s.dg → i ∈ [.emit, .reset]) ∧
    (t.done = true → s.done = false → i = .emit) ∧
    (t.done = false → s.done = true → (∃ L p, i = .submit L p) ∨ i = .reset) ∧
    (t.dvalid = true → s.dvalid = false → i = .emit) ∧
    (t.dvalid = false → s.dvalid = true → i = .reset) ∧
    (t.err ≠ s.err → (∃ L p, i = .submit L p) ∨ i ∈ [.psize, .chunk, .reset]) ∧
    (t.replies ≠ s.replies → i ∈ [.result, .status]) ∧
    t.cfg = s.cfg ∧ t.inputs = s.inputs

/-- Responses already returned are never changed: at every step the replies so far stay, in order
(10_state.md section 7, 46_host.md "by value/copy"). -/
def Obligations.RepliesAlreadyReturnedStay : Prop :=
  ∀ s t : State, step s = .next t → ∃ new, t.replies = s.replies ++ new ∧ new.length ≤ 1

/-- The sequence of micro-operations depends on the length, never on message bytes, W, `a..h`, HS or DG
(45_aggregator.md section 2): two states that agree on the control part take steps that agree on it,
unless RESET draws new values. -/
def Obligations.ControlIsIndependentOfData : Prop :=
  ∀ s u t : State, s.control = u.control → s.inputs.head? ≠ some .resetLine → step s = .next t →
    ∃ v, step u = .next v ∧ v.control = t.control

/-- The canonical form is canonical: two memories in it that read the same everywhere are the same list
(log 6, the model's form). -/
def Obligations.CanonicalMemoriesAreEqual : Prop :=
  ∀ m m' : Memory, m.wf = true → m'.wf = true → (∀ a, m.read a = m'.read a) → m = m'

/-- Outside the ranges their operand lines state, which no run reaches, the operations stop by name with
nothing done (log 8, the model's own faults). -/
def Obligations.OutOfRangeOperandsStop : Prop :=
  ∀ s : State,
    (s.cfg.pbCap < s.plen → exec .pzero s = .fault .pbRange) ∧
    (s.cfg.msgCap < s.len → exec .pcopy s = .fault .msgRange) ∧
    (s.len ≤ s.cfg.msgCap → s.cfg.pbCap < s.len → exec .pcopy s = .fault .pbRange) ∧
    (s.cfg.pbCap ≤ s.len → exec .pstop s = .fault .pbRange) ∧
    (2 ^ 64 ≤ 8 * s.len → exec .plenf s = .fault .lengthRange) ∧
    (8 * s.len < 2 ^ 64 → s.plen < 8 → exec .plenf s = .fault .pbRange) ∧
    (8 * s.len < 2 ^ 64 → 8 ≤ s.plen → s.cfg.pbCap < s.plen → exec .plenf s = .fault .pbRange) ∧
    (15 < s.t.val → exec .wload s = .fault .indexRange) ∧
    (s.t.val ≤ 15 → s.cfg.pbCap < 64 * s.ci + 4 * s.t.val + 4 → exec .wload s = .fault .pbRange) ∧
    (s.t.val < 16 ∨ 63 < s.t.val → exec .wexp s = .fault .indexRange) ∧
    (63 < s.t.val → exec .round s = .fault .indexRange)

/-! ### Arithmetic (40_arith.md) -/

/-- `add32` is addition modulo `2^32` (R90). -/
def Obligations.AdditionWraps : Prop :=
  ∀ x y : Word, (add32 x y).toNat = (x.toNat + y.toNat) % 2 ^ 32

/-- `rotr(x, n)`: bit `i` of the result is bit `(i + n) mod 32` of `x`, for `1 ≤ n ≤ 31` (R91). -/
def Obligations.RotationMovesBits : Prop :=
  ∀ (x : Word) (n i : Nat), 1 ≤ n → n ≤ 31 → i < 32 →
    rotr x n = (x >>> n) ||| (x <<< (32 - n)) ∧ (rotr x n).getLsbD i = x.getLsbD ((i + n) % 32)

/-- `shr(x, n) = x div 2^n` (R92). -/
def Obligations.ShiftDividesByAPowerOfTwo : Prop :=
  ∀ (x : Word) (n : Nat), (shr x n).toNat = x.toNat / 2 ^ n

/-- The four sigma functions, bit by bit (R95 to R98): each result bit is the exclusive or of three bits
of `x`, where the shifted operand of sigma0 and sigma1 brings in zeros at the top. -/
def Obligations.SigmaFunctionsBitwise : Prop :=
  ∀ (x : Word) (i : Nat), i < 32 →
    (sigma0 x).getLsbD i = ((x.getLsbD ((i + 7) % 32) ^^ x.getLsbD ((i + 18) % 32)) ^^ x.getLsbD (i + 3)) ∧
    (sigma1 x).getLsbD i = ((x.getLsbD ((i + 17) % 32) ^^ x.getLsbD ((i + 19) % 32)) ^^ x.getLsbD (i + 10)) ∧
    (bigSigma0 x).getLsbD i =
      ((x.getLsbD ((i + 2) % 32) ^^ x.getLsbD ((i + 13) % 32)) ^^ x.getLsbD ((i + 22) % 32)) ∧
    (bigSigma1 x).getLsbD i =
      ((x.getLsbD ((i + 6) % 32) ^^ x.getLsbD ((i + 11) % 32)) ^^ x.getLsbD ((i + 25) % 32))

/-- `Ch` takes each bit of `f` where `e` has 1 and of `g` where `e` has 0 (R99); `Maj` is the majority of
the three bits (R100). -/
def Obligations.ChooseAndMajorityBitwise : Prop :=
  ∀ (x y z : Word) (i : Nat), i < 32 →
    (ch x y z).getLsbD i = (if x.getLsbD i then y.getLsbD i else z.getLsbD i) ∧
    (maj x y z).getLsbD i =
      decide (2 ≤ (x.getLsbD i).toNat + (y.getLsbD i).toNat + (z.getLsbD i).toNat)

/-- The round constants, in the sixteen rows `K[4n..4n+3]` that 40_arith.md prints: what `kAt`, through
which ROUND, `compress` and `SHA256` read K, gives at the four indices of each row. The spec marks the table
as general knowledge (log 11, PRESUMED). -/
def Obligations.RoundConstantsAreTheTable : Prop :=
  (List.range' 0 4).map kAt = [0x428a2f98, 0x71374491, 0xb5c0fbcf, 0xe9b5dba5] ∧
  (List.range' 4 4).map kAt = [0x3956c25b, 0x59f111f1, 0x923f82a4, 0xab1c5ed5] ∧
  (List.range' 8 4).map kAt = [0xd807aa98, 0x12835b01, 0x243185be, 0x550c7dc3] ∧
  (List.range' 12 4).map kAt = [0x72be5d74, 0x80deb1fe, 0x9bdc06a7, 0xc19bf174] ∧
  (List.range' 16 4).map kAt = [0xe49b69c1, 0xefbe4786, 0x0fc19dc6, 0x240ca1cc] ∧
  (List.range' 20 4).map kAt = [0x2de92c6f, 0x4a7484aa, 0x5cb0a9dc, 0x76f988da] ∧
  (List.range' 24 4).map kAt = [0x983e5152, 0xa831c66d, 0xb00327c8, 0xbf597fc7] ∧
  (List.range' 28 4).map kAt = [0xc6e00bf3, 0xd5a79147, 0x06ca6351, 0x14292967] ∧
  (List.range' 32 4).map kAt = [0x27b70a85, 0x2e1b2138, 0x4d2c6dfc, 0x53380d13] ∧
  (List.range' 36 4).map kAt = [0x650a7354, 0x766a0abb, 0x81c2c92e, 0x92722c85] ∧
  (List.range' 40 4).map kAt = [0xa2bfe8a1, 0xa81a664b, 0xc24b8b70, 0xc76c51a3] ∧
  (List.range' 44 4).map kAt = [0xd192e819, 0xd6990624, 0xf40e3585, 0x106aa070] ∧
  (List.range' 48 4).map kAt = [0x19a4c116, 0x1e376c08, 0x2748774c, 0x34b0bcb5] ∧
  (List.range' 52 4).map kAt = [0x391c0cb3, 0x4ed8aa4a, 0x5b9cca4f, 0x682e6ff3] ∧
  (List.range' 56 4).map kAt = [0x748f82ee, 0x78a5636f, 0x84c87814, 0x8cc70208] ∧
  (List.range' 60 4).map kAt = [0x90befffa, 0xa4506ceb, 0xbef9a3f7, 0xc67178f2]
end

