-- ==== Sys2Proof/Laws/Arith.lean ====
section
/-!
SUPPORT. Laws of the pure functions: the closed form of the padded length, schedule words read after a
write, and the byte forms of words and lengths.
-/
namespace Sys2Proof.Machine

/-- The closed form of the padded length (41_encoder.md R110). -/
theorem paddedLen_eq (L : Nat) : paddedLen L = 64 * ((L + 8) / 64 + 1) := by
  unfold paddedLen; omega

theorem paddedLen_mod (L : Nat) : paddedLen L % 64 = 0 := by rw [paddedLen_eq]; omega

theorem paddedLen_ge (L : Nat) : L + 9 ≤ paddedLen L := by rw [paddedLen_eq]; omega

theorem paddedLen_pos (L : Nat) : 64 ≤ paddedLen L := by rw [paddedLen_eq]; omega

theorem wAt_of_lt (w : Vector Word 64) (i : Nat) (h : i < 64) : wAt w i = w[i] := by
  simp [wAt, h]

/-- Only `W[i]` changes (43_schedule.md R128). -/
@[simp] theorem wAt_wSet (w : Vector Word 64) (i j : Nat) (x : Word) (hi : i < 64) :
    wAt (wSet w i x) j = if j = i then x else wAt w j := by
  unfold wAt wSet
  by_cases hj : j = i
  · subst hj; simp [hi]
  · simp [hj, Ne.symm hj]

/-- Two schedules with the same words are the same. -/
theorem schedule_ext {w w' : Vector Word 64} (h : ∀ i, i < 64 → wAt w i = wAt w' i) : w = w' := by
  apply Vector.ext
  intro i hi
  rw [← wAt_of_lt w i hi, ← wAt_of_lt w' i hi, h i hi]

@[simp] theorem beBytes_length (n v : Nat) : (beBytes n v).length = n := by simp [beBytes]

@[simp] theorem beBytes_getD (n v j : Nat) (hj : j < n) (d : Byte) :
    (beBytes n v).getD j d = BitVec.ofNat 8 (v / 256 ^ (n - 1 - j)) := by
  simp [beBytes, hj]

@[simp] theorem wordBytes_length (x : Word) : (wordBytes x).length = 4 := rfl

@[simp] theorem digestBytes_length (x : Words8) : (digestBytes x).length = 32 := rfl

/-- Big-endian packing as a sum of four non-overlapping fields (43_schedule.md R125). -/
theorem packWord_toNat (b0 b1 b2 b3 : Byte) : (packWord b0 b1 b2 b3).toNat =
    b0.toNat * 2 ^ 24 + b1.toNat * 2 ^ 16 + b2.toNat * 2 ^ 8 + b3.toNat := by
  have h1 := b1.isLt
  have h2 := b2.isLt
  have h3 := b3.isLt
  simp only [packWord, BitVec.toNat_append]
  rw [← Nat.shiftLeft_add_eq_or_of_lt h3, ← Nat.shiftLeft_add_eq_or_of_lt h2,
    ← Nat.shiftLeft_add_eq_or_of_lt h1]
  simp only [Nat.shiftLeft_eq]
  omega

theorem rounds_append (x : Vector Word 64) (r : Words8) (ts us : List Nat) :
    rounds x r (ts ++ us) = rounds x (rounds x r ts) us := by
  simp [rounds]

theorem loadWords_append (b : Nat → Byte) (w : Vector Word 64) (is js : List Nat) :
    loadWords b w (is ++ js) = loadWords b (loadWords b w is) js := by
  simp [loadWords]

theorem expandWords_append (w : Vector Word 64) (is js : List Nat) :
    expandWords w (is ++ js) = expandWords (expandWords w is) js := by
  simp [expandWords]

end Sys2Proof.Machine
end

