-- ==== Sys2Proof/Laws/Exec.lean ====
section
/-!
SUPPORT. For each meaning that can stop, once and for all: when it answers a next state, and which.
-/
namespace Sys2Proof.Machine

theorem execPzero_eq_next {s t : State} : execPzero s = .next t ↔
    s.pbHas 0 s.plen ∧
      t = ({ s with pb := s.pb.writeBytes 0 (List.replicate s.plen 0) } : State).goto .pcopy := by
  unfold execPzero
  split <;> simp_all [eq_comm]

theorem execPcopy_eq_next {s t : State} : execPcopy s = .next t ↔
    s.msgHas 0 s.len ∧ s.pbHas 0 s.len ∧
      t = ({ s with pb := s.pb.writeBytes 0 s.message } : State).goto .pstop := by
  unfold execPcopy
  split
  · split <;> simp_all [eq_comm]
  · simp_all

theorem execPstop_eq_next {s t : State} : execPstop s = .next t ↔
    s.pbHas s.len 1 ∧
      t = ({ s with pb := s.pb.write s.len (s.stopByte ||| 0x80) } : State).goto .plenf := by
  unfold execPstop
  split <;> simp_all [eq_comm]

theorem execPlenf_eq_next {s t : State} : execPlenf s = .next t ↔
    8 * s.len < 2 ^ 64 ∧ 8 ≤ s.plen ∧ s.pbHas s.lengthFieldAddr 8 ∧
      t = ({ s with pb := s.pb.writeBytes s.lengthFieldAddr s.lengthField } : State).goto .chunk := by
  unfold execPlenf
  by_cases h : 2 ^ 64 ≤ 8 * s.len
  · simp only [h, if_true]
    constructor
    · intro h'; cases h'
    · rintro ⟨h', -⟩; omega
  · by_cases h' : 8 ≤ s.plen ∧ s.pbHas s.lengthFieldAddr 8
    · simp only [h, h', and_self, if_true, if_false]
      constructor
      · intro e; cases e; exact ⟨by omega, trivial, trivial, rfl⟩
      · rintro ⟨-, -, -, rfl⟩; rfl
    · simp only [h, h', if_false]
      constructor
      · intro e; cases e
      · rintro ⟨-, a, b, -⟩; exact absurd ⟨a, b⟩ h'

theorem execWload_eq_next {s t : State} : execWload s = .next t ↔
    s.t.val ≤ 15 ∧ s.pbHas s.chunkWordAddr 4 ∧
      t = ({ s with w := wSet s.w s.t.val s.chunkWord, t := indexUp s.t } : State).goto
        (if s.t.val = 15 then .wexp else .wload) := by
  unfold execWload
  split
  · split <;> simp_all [eq_comm]
  · simp_all

theorem execWexp_eq_next {s t : State} : execWexp s = .next t ↔
    (16 ≤ s.t.val ∧ s.t.val ≤ 63) ∧
      t = ({ s with
        w := wSet s.w s.t.val (expandWord (s.wBack 16) (s.wBack 15) (s.wBack 7) (s.wBack 2))
        t := indexUp s.t } : State).goto (if s.t.val = 63 then .rload else .wexp) := by
  unfold execWexp
  split <;> simp_all [eq_comm]

theorem execRound_eq_next {s t : State} : execRound s = .next t ↔
    s.t.val ≤ 63 ∧
      t = ({ s with r := roundWords s.r s.kT s.wT, t := indexUp s.t } : State).goto
        (if s.t.val = 63 then .feed else .round) := by
  unfold execRound
  split <;> simp_all [eq_comm]

/-- PSIZE always answers a next state: the padded length, or the abort. -/
theorem execPsize_eq_next {s t : State} : execPsize s = .next t ↔
    (s.cfg.pbCap < paddedLen s.len ∧ t = s.abort .allocationFailure) ∨
    (paddedLen s.len ≤ s.cfg.pbCap ∧
      t = ({ s with plen := paddedLen s.len } : State).goto .pzero) := by
  unfold execPsize
  by_cases h : s.cfg.pbCap < paddedLen s.len
  · simp only [h, if_true]
    constructor
    · intro e; cases e; exact .inl ⟨trivial, rfl⟩
    · rintro (⟨-, rfl⟩ | ⟨h', -⟩)
      · rfl
      · omega
  · simp only [h, if_false]
    constructor
    · intro e; cases e; exact .inr ⟨by omega, rfl⟩
    · rintro (⟨h', -⟩ | ⟨-, rfl⟩)
      · exact h'.elim
      · rfl

/-- CHUNK always answers a next state: count and first chunk, or the abort. -/
theorem execChunk_eq_next {s t : State} : execChunk s = .next t ↔
    (s.plen % 64 = 0 ∧ t = ({ s with nch := s.plen / 64, ci := 0 } : State).goto .init) ∨
    (s.plen % 64 ≠ 0 ∧ t = s.abort .invariantViolation) := by
  unfold execChunk
  by_cases h : s.plen % 64 = 0 <;> simp [h, eq_comm]

/-- NEXT always answers a next state: the next chunk, or EMIT. -/
theorem execNext_eq_next {s t : State} : execNext s = .next t ↔
    (s.ci + 1 < s.nch ∧ t = ({ s with ci := s.ci + 1, t := 0 } : State).goto .wload) ∨
    (¬s.ci + 1 < s.nch ∧ t = s.goto .emit) := by
  unfold execNext
  by_cases h : s.ci + 1 < s.nch <;> simp [h, eq_comm]

/-- SUBMIT always answers a next state: held, over-long, or staged. -/
theorem execSubmit_eq_next {L : Nat} {p : List Byte} {s t : State} :
    execSubmit L p s = .next t ↔
    (s.busy = true ∧ t = s) ∨
    (s.busy = false ∧ s.cfg.msgCap < L ∧ t = s.lengthExceeded) ∨
    (s.busy = false ∧ L ≤ s.cfg.msgCap ∧ t = s.stage (submitBytes L p) L) := by
  unfold execSubmit
  cases hb : s.busy
  · by_cases h : s.cfg.msgCap < L
    · simp [h, Nat.not_le.mpr h, eq_comm]
    · simp [h, Nat.not_lt.mp h, eq_comm]
  · simp [eq_comm]

/-- RESULT always answers a next state: one reply, and one draw while `DVALID = 0`. -/
theorem execResult_eq_next {s t : State} : execResult s = .next t ↔
    (s.dvalid = true ∧ t = s.reply (.digest (digestBytes s.dg))) ∨
    (s.dvalid = false ∧
      t = s.drawn.reply (.digest (digestBytes (Config.drawResult s.draws)))) := by
  unfold execResult
  cases s.dvalid <;> simp [eq_comm]

end Sys2Proof.Machine
end

