-- ==== Sys2Proof/Laws/Memory.lean ====
section
/-!
SUPPORT. Laws of the byte memory: a read after a write, and that every operation keeps the canonical
form and the capacity.
-/
namespace Sys2Proof.Machine

/-! ### Reads -/

theorem Memory.read_of_head (k : Nat) (v : Byte) (m : Memory) (x : Nat) :
    Memory.read ((k, v) :: m) x = if k = x then v else Memory.read m x := rfl

theorem Memory.read_erase (m : Memory) (a x : Nat) :
    Memory.read (m.erase a) x = if x = a then Memory.blank else m.read x := by
  induction m with
  | nil => simp [Memory.erase, Memory.read]
  | cons c m ih =>
    obtain ⟨k, v⟩ := c
    by_cases hk : k = a
    · have he : Memory.erase ((k, v) :: m) a = Memory.erase m a := by simp [Memory.erase, hk]
      rw [he, ih, Memory.read_of_head]
      by_cases hx : x = a
      · simp [hx]
      · simp [hx, show ¬k = x by omega]
    · have he : Memory.erase ((k, v) :: m) a = (k, v) :: Memory.erase m a := by
        simp [Memory.erase, hk]
      rw [he, Memory.read_of_head, Memory.read_of_head, ih]
      by_cases hx : x = a
      · simp [hx, hk]
      · simp [hx]

theorem Memory.read_insert (m : Memory) (a : Nat) (b : Byte) (x : Nat)
    (hfree : ∀ c ∈ m, c.1 ≠ a) :
    Memory.read (Memory.insert a b m) x = if x = a then b else m.read x := by
  induction m with
  | nil => simp [Memory.insert, Memory.read, eq_comm]
  | cons c m ih =>
    obtain ⟨k, v⟩ := c
    have hka : k ≠ a := hfree (k, v) (by simp)
    have ih' := ih (fun c hc => hfree c (by simp [hc]))
    unfold Memory.insert
    by_cases hlt : a < k
    · simp only [hlt, if_true, Memory.read_of_head]
      by_cases hx : x = a
      · simp [hx]
      · simp [hx, Ne.symm hx]
    · simp only [hlt, if_false, Memory.read_of_head, ih']
      by_cases hx : x = a
      · simp [hx, hka]
      · simp [hx]

theorem Memory.erase_free (m : Memory) (a : Nat) : ∀ c ∈ m.erase a, c.1 ≠ a := by
  intro c hc
  simpa using (List.mem_filter.mp hc).2

/-- A read after a write: the byte written at that address, every other address as before. -/
@[simp] theorem Memory.read_write (m : Memory) (a : Nat) (b : Byte) (x : Nat) :
    (m.write a b).read x = if x = a then b else m.read x := by
  unfold Memory.write
  by_cases hb : b = Memory.blank
  · simp only [hb, if_true, Memory.read_erase]
  · simp only [hb, if_false, Memory.read_insert _ a b x (Memory.erase_free m a), Memory.read_erase]
    by_cases hx : x = a <;> simp [hx]

/-- A read after a run of bytes was written at `a`. -/
@[simp] theorem Memory.read_writeBytes (m : Memory) (a : Nat) (bs : List Byte) (x : Nat) :
    (m.writeBytes a bs).read x =
      if a ≤ x ∧ x < a + bs.length then bs.getD (x - a) 0 else m.read x := by
  induction bs generalizing m a with
  | nil => simp [Memory.writeBytes]
  | cons b bs ih =>
    simp only [Memory.writeBytes, ih, Memory.read_write, List.length_cons]
    by_cases hxa : x = a
    · subst hxa; simp
    · by_cases hin : a + 1 ≤ x ∧ x < a + 1 + bs.length
      · rw [if_pos hin, if_pos (by omega), show x - a = x - (a + 1) + 1 by omega, List.getD_cons_succ]
      · rw [if_neg hin, if_neg hxa, if_neg (by omega)]

@[simp] theorem Memory.readBytes_length (m : Memory) (a n : Nat) : (m.readBytes a n).length = n := by
  induction n generalizing a with
  | zero => rfl
  | succ n ih => simp [Memory.readBytes, ih]

@[simp] theorem Memory.readBytes_getD (m : Memory) (a n j : Nat) (hj : j < n) (d : Byte) :
    (m.readBytes a n).getD j d = m.read (a + j) := by
  induction n generalizing a j with
  | zero => omega
  | succ n ih =>
    cases j with
    | zero => simp [Memory.readBytes]
    | succ j =>
      simp only [Memory.readBytes, List.getD_cons_succ]
      rw [ih (a + 1) j (by omega)]
      congr 1; omega

/-! ### The canonical form is kept -/

theorem Memory.wfFrom_mono {lo lo' : Nat} {m : Memory} (h : lo' ≤ lo) (hw : m.wfFrom lo = true) :
    m.wfFrom lo' = true := by
  cases m with
  | nil => rfl
  | cons c m =>
    obtain ⟨k, v⟩ := c
    simp only [Memory.wfFrom, Bool.and_eq_true, decide_eq_true_eq] at hw ⊢
    exact ⟨⟨by omega, hw.1.2⟩, hw.2⟩

theorem Memory.wfFrom_erase {lo : Nat} {m : Memory} (a : Nat) (hw : m.wfFrom lo = true) :
    Memory.wfFrom lo (m.erase a) = true := by
  induction m generalizing lo with
  | nil => rfl
  | cons c m ih =>
    obtain ⟨k, v⟩ := c
    simp only [Memory.wfFrom, Bool.and_eq_true, decide_eq_true_eq] at hw
    by_cases hk : k = a
    · have he : Memory.erase ((k, v) :: m) a = Memory.erase m a := by simp [Memory.erase, hk]
      rw [he]
      exact Memory.wfFrom_mono (by omega) (ih hw.2)
    · have he : Memory.erase ((k, v) :: m) a = (k, v) :: Memory.erase m a := by
        simp [Memory.erase, hk]
      rw [he]
      simp only [Memory.wfFrom, Bool.and_eq_true, decide_eq_true_eq]
      exact ⟨hw.1, ih hw.2⟩

theorem Memory.wfFrom_insert {lo : Nat} {m : Memory} {a : Nat} {b : Byte} (hb : b ≠ Memory.blank)
    (hlo : lo ≤ a) (hfree : ∀ c ∈ m, c.1 ≠ a) (hw : m.wfFrom lo = true) :
    Memory.wfFrom lo (Memory.insert a b m) = true := by
  induction m generalizing lo with
  | nil => simp [Memory.insert, Memory.wfFrom, hlo, hb]
  | cons c m ih =>
    obtain ⟨k, v⟩ := c
    have hka : k ≠ a := hfree (k, v) (by simp)
    simp only [Memory.wfFrom, Bool.and_eq_true, decide_eq_true_eq] at hw
    unfold Memory.insert
    by_cases hlt : a < k
    · simp only [hlt, if_true, Memory.wfFrom, Bool.and_eq_true, decide_eq_true_eq]
      exact ⟨⟨hlo, hb⟩, ⟨by omega, hw.1.2⟩, hw.2⟩
    · simp only [hlt, if_false, Memory.wfFrom, Bool.and_eq_true, decide_eq_true_eq]
      exact ⟨hw.1, ih (by omega) (fun c hc => hfree c (by simp [hc])) hw.2⟩

theorem Memory.wf_write {m : Memory} (a : Nat) (b : Byte) (hw : m.wf = true) :
    (m.write a b).wf = true := by
  unfold Memory.write
  by_cases hb : b = Memory.blank
  · simp only [hb, if_true]; exact Memory.wfFrom_erase a hw
  · simp only [hb, if_false]
    exact Memory.wfFrom_insert hb (Nat.zero_le a) (Memory.erase_free m a) (Memory.wfFrom_erase a hw)

theorem Memory.wf_writeBytes {m : Memory} (a : Nat) (bs : List Byte) (hw : m.wf = true) :
    (m.writeBytes a bs).wf = true := by
  induction bs generalizing m a with
  | nil => exact hw
  | cons b bs ih => exact ih (a + 1) (Memory.wf_write a b hw)

/-! ### The capacity is kept -/

theorem Memory.within_iff {m : Memory} {cap : Nat} :
    m.within cap = true ↔ ∀ c ∈ m, c.1 < cap := by
  simp [Memory.within, List.all_eq_true]

theorem Memory.mem_insert {m : Memory} {a : Nat} {b : Byte} {c : Host.Cell} :
    c ∈ Memory.insert a b m → c = (a, b) ∨ c ∈ m := by
  induction m with
  | nil => simp [Memory.insert]
  | cons d m ih =>
    unfold Memory.insert
    split
    · intro h; simpa using h
    · intro h
      rcases List.mem_cons.mp h with h | h
      · exact .inr (by simp [h])
      · rcases ih h with h | h
        · exact .inl h
        · exact .inr (by simp [h])

theorem Memory.within_write {m : Memory} {cap a : Nat} (b : Byte) (ha : a < cap)
    (hw : m.within cap = true) : (m.write a b).within cap = true := by
  rw [Memory.within_iff] at hw ⊢
  intro c hc
  unfold Memory.write at hc
  split at hc
  · exact hw c (List.mem_filter.mp hc).1
  · rcases Memory.mem_insert hc with rfl | hc
    · exact ha
    · exact hw c (List.mem_filter.mp hc).1

theorem Memory.within_writeBytes {m : Memory} {cap a : Nat} {bs : List Byte}
    (ha : a + bs.length ≤ cap) (hw : m.within cap = true) :
    (m.writeBytes a bs).within cap = true := by
  induction bs generalizing m a with
  | nil => exact hw
  | cons b bs ih =>
    rw [List.length_cons] at ha
    exact ih (by omega) (Memory.within_write b (by omega) hw)

/-! ### A memory of arbitrary cells -/

theorem Memory.ofCells_wf (cap : Nat) (cs : List Host.Cell) : (Memory.ofCells cap cs).wf = true := by
  induction cs with
  | nil => rfl
  | cons c cs ih =>
    obtain ⟨a, b⟩ := c
    unfold Memory.ofCells
    split
    · exact Memory.wf_write a b ih
    · exact ih

theorem Memory.ofCells_within (cap : Nat) (cs : List Host.Cell) :
    (Memory.ofCells cap cs).within cap = true := by
  induction cs with
  | nil => rfl
  | cons c cs ih =>
    obtain ⟨a, b⟩ := c
    unfold Memory.ofCells
    split
    · exact Memory.within_write b ‹_› ih
    · exact ih

/-- Every memory in canonical form and of that capacity is the memory of its own cells: what RESET
leaves in MSG and PB ranges over all of them. -/
theorem Memory.ofCells_self_read (cap : Nat) (cs : List Host.Cell) (h : Memory.within cs cap = true)
    (x : Nat) : (Memory.ofCells cap cs).read x = Memory.read cs x := by
  induction cs with
  | nil => rfl
  | cons c cs ih =>
    obtain ⟨a, b⟩ := c
    rw [Memory.within_iff] at h
    have ha : a < cap := h (a, b) (by simp)
    have ih' := ih (Memory.within_iff.mpr (fun c hc => h c (by simp [hc])))
    unfold Memory.ofCells
    simp only [ha, if_true, Memory.read_write, ih', Memory.read_of_head, eq_comm]

end Sys2Proof.Machine
end

