-- ==== Sys2Proof/Laws/PerInstr.lean ====
section
/-!
SUPPORT. Statements made per operation, one lemma per constructor of `Instr`.
-/
namespace Sys2Proof.Laws.Accepts

/-- The decoder accepts the encoding of an operation exactly when the operation is well-formed
(30_encoding.md R71, R73). -/
def Statement (i : Instr) : Prop := (decode (encode i)).toBool = i.wf

theorem nop : Statement .nop := rfl

theorem submit (L : Nat) (payload : List Byte) : Statement (.submit L payload) := by
  by_cases h : payload.length = L <;>
    simp [Statement, encode, decode, decodeCmd, decodeSubmit, cmdNop, cmdSubmit, Instr.wf,
      Except.toBool, h]

theorem result : Statement .result := rfl
theorem status : Statement .status := rfl
theorem psize : Statement .psize := rfl
theorem pzero : Statement .pzero := rfl
theorem pcopy : Statement .pcopy := rfl
theorem pstop : Statement .pstop := rfl
theorem plenf : Statement .plenf := rfl
theorem chunk : Statement .chunk := rfl
theorem init : Statement .init := rfl
theorem wload : Statement .wload := rfl
theorem wexp : Statement .wexp := rfl
theorem rload : Statement .rload := rfl
theorem round : Statement .round := rfl
theorem feed : Statement .feed := rfl
theorem next : Statement .next := rfl
theorem emit : Statement .emit := rfl
theorem reset : Statement .reset := rfl

end Sys2Proof.Laws.Accepts
end

