-- ==== Sys2Proof/Laws/State.lean ====
section
/-!
SUPPORT. One lemma per field per named state update, each true by unfolding, so that no later proof
unfolds a record update.
-/
namespace Sys2Proof.Machine

/-! ### The index T -/

@[simp] theorem index_val (k : Nat) (hk : k ≤ 64) : (Fin.ofNat 65 k : Index).val = k := by
  rw [Fin.val_ofNat]; omega

/-- Within the ranges of the operand lines `T <- T + 1` does not wrap (10_state.md R27). -/
theorem indexUp_val (t : Index) (h : t.val ≤ 63) : (indexUp t).val = t.val + 1 := by
  rw [indexUp, Fin.val_add_one_of_lt' (by omega)]

theorem indexUp_ofNat (k : Nat) (hk : k ≤ 63) : indexUp (Fin.ofNat 65 k) = Fin.ofNat 65 (k + 1) := by
  apply Fin.ext
  rw [indexUp_val _ (by rw [index_val k (by omega)]; omega), index_val k (by omega),
    index_val (k + 1) (by omega)]

/-! ### `PHASE <- p` -/

@[simp] theorem State.goto_msg (s : State) (p : Phase) : (s.goto p).msg = s.msg := rfl
@[simp] theorem State.goto_len (s : State) (p : Phase) : (s.goto p).len = s.len := rfl
@[simp] theorem State.goto_pb (s : State) (p : Phase) : (s.goto p).pb = s.pb := rfl
@[simp] theorem State.goto_plen (s : State) (p : Phase) : (s.goto p).plen = s.plen := rfl
@[simp] theorem State.goto_nch (s : State) (p : Phase) : (s.goto p).nch = s.nch := rfl
@[simp] theorem State.goto_ci (s : State) (p : Phase) : (s.goto p).ci = s.ci := rfl
@[simp] theorem State.goto_t (s : State) (p : Phase) : (s.goto p).t = s.t := rfl
@[simp] theorem State.goto_phase (s : State) (p : Phase) : (s.goto p).phase = p := rfl
@[simp] theorem State.goto_w (s : State) (p : Phase) : (s.goto p).w = s.w := rfl
@[simp] theorem State.goto_r (s : State) (p : Phase) : (s.goto p).r = s.r := rfl
@[simp] theorem State.goto_hs (s : State) (p : Phase) : (s.goto p).hs = s.hs := rfl
@[simp] theorem State.goto_dg (s : State) (p : Phase) : (s.goto p).dg = s.dg := rfl
@[simp] theorem State.goto_done (s : State) (p : Phase) : (s.goto p).done = s.done := rfl
@[simp] theorem State.goto_dvalid (s : State) (p : Phase) : (s.goto p).dvalid = s.dvalid := rfl
@[simp] theorem State.goto_err (s : State) (p : Phase) : (s.goto p).err = s.err := rfl
@[simp] theorem State.goto_cfg (s : State) (p : Phase) : (s.goto p).cfg = s.cfg := rfl
@[simp] theorem State.goto_inputs (s : State) (p : Phase) : (s.goto p).inputs = s.inputs := rfl
@[simp] theorem State.goto_replies (s : State) (p : Phase) : (s.goto p).replies = s.replies := rfl
@[simp] theorem State.goto_draws (s : State) (p : Phase) : (s.goto p).draws = s.draws := rfl

/-! ### the abort -/

@[simp] theorem State.abort_msg (s : State) (c : ErrCode) : (s.abort c).msg = s.msg := rfl
@[simp] theorem State.abort_len (s : State) (c : ErrCode) : (s.abort c).len = s.len := rfl
@[simp] theorem State.abort_pb (s : State) (c : ErrCode) : (s.abort c).pb = s.pb := rfl
@[simp] theorem State.abort_plen (s : State) (c : ErrCode) : (s.abort c).plen = s.plen := rfl
@[simp] theorem State.abort_nch (s : State) (c : ErrCode) : (s.abort c).nch = s.nch := rfl
@[simp] theorem State.abort_ci (s : State) (c : ErrCode) : (s.abort c).ci = s.ci := rfl
@[simp] theorem State.abort_t (s : State) (c : ErrCode) : (s.abort c).t = s.t := rfl
@[simp] theorem State.abort_phase (s : State) (c : ErrCode) : (s.abort c).phase = .idle := rfl
@[simp] theorem State.abort_w (s : State) (c : ErrCode) : (s.abort c).w = s.w := rfl
@[simp] theorem State.abort_r (s : State) (c : ErrCode) : (s.abort c).r = s.r := rfl
@[simp] theorem State.abort_hs (s : State) (c : ErrCode) : (s.abort c).hs = s.hs := rfl
@[simp] theorem State.abort_dg (s : State) (c : ErrCode) : (s.abort c).dg = s.dg := rfl
@[simp] theorem State.abort_done (s : State) (c : ErrCode) : (s.abort c).done = s.done := rfl
@[simp] theorem State.abort_dvalid (s : State) (c : ErrCode) : (s.abort c).dvalid = s.dvalid := rfl
@[simp] theorem State.abort_err (s : State) (c : ErrCode) : (s.abort c).err = c := rfl
@[simp] theorem State.abort_cfg (s : State) (c : ErrCode) : (s.abort c).cfg = s.cfg := rfl
@[simp] theorem State.abort_inputs (s : State) (c : ErrCode) : (s.abort c).inputs = s.inputs := rfl
@[simp] theorem State.abort_replies (s : State) (c : ErrCode) : (s.abort c).replies = s.replies := rfl
@[simp] theorem State.abort_draws (s : State) (c : ErrCode) : (s.abort c).draws = s.draws := rfl

/-! ### a response -/

@[simp] theorem State.reply_msg (s : State) (x : Reply) : (s.reply x).msg = s.msg := rfl
@[simp] theorem State.reply_len (s : State) (x : Reply) : (s.reply x).len = s.len := rfl
@[simp] theorem State.reply_pb (s : State) (x : Reply) : (s.reply x).pb = s.pb := rfl
@[simp] theorem State.reply_plen (s : State) (x : Reply) : (s.reply x).plen = s.plen := rfl
@[simp] theorem State.reply_nch (s : State) (x : Reply) : (s.reply x).nch = s.nch := rfl
@[simp] theorem State.reply_ci (s : State) (x : Reply) : (s.reply x).ci = s.ci := rfl
@[simp] theorem State.reply_t (s : State) (x : Reply) : (s.reply x).t = s.t := rfl
@[simp] theorem State.reply_phase (s : State) (x : Reply) : (s.reply x).phase = s.phase := rfl
@[simp] theorem State.reply_w (s : State) (x : Reply) : (s.reply x).w = s.w := rfl
@[simp] theorem State.reply_r (s : State) (x : Reply) : (s.reply x).r = s.r := rfl
@[simp] theorem State.reply_hs (s : State) (x : Reply) : (s.reply x).hs = s.hs := rfl
@[simp] theorem State.reply_dg (s : State) (x : Reply) : (s.reply x).dg = s.dg := rfl
@[simp] theorem State.reply_done (s : State) (x : Reply) : (s.reply x).done = s.done := rfl
@[simp] theorem State.reply_dvalid (s : State) (x : Reply) : (s.reply x).dvalid = s.dvalid := rfl
@[simp] theorem State.reply_err (s : State) (x : Reply) : (s.reply x).err = s.err := rfl
@[simp] theorem State.reply_cfg (s : State) (x : Reply) : (s.reply x).cfg = s.cfg := rfl
@[simp] theorem State.reply_inputs (s : State) (x : Reply) : (s.reply x).inputs = s.inputs := rfl
@[simp] theorem State.reply_replies (s : State) (x : Reply) : (s.reply x).replies = s.replies ++ [x] := rfl
@[simp] theorem State.reply_draws (s : State) (x : Reply) : (s.reply x).draws = s.draws := rfl

/-! ### a draw -/

@[simp] theorem State.drawn_msg (s : State) : s.drawn.msg = s.msg := rfl
@[simp] theorem State.drawn_len (s : State) : s.drawn.len = s.len := rfl
@[simp] theorem State.drawn_pb (s : State) : s.drawn.pb = s.pb := rfl
@[simp] theorem State.drawn_plen (s : State) : s.drawn.plen = s.plen := rfl
@[simp] theorem State.drawn_nch (s : State) : s.drawn.nch = s.nch := rfl
@[simp] theorem State.drawn_ci (s : State) : s.drawn.ci = s.ci := rfl
@[simp] theorem State.drawn_t (s : State) : s.drawn.t = s.t := rfl
@[simp] theorem State.drawn_phase (s : State) : s.drawn.phase = s.phase := rfl
@[simp] theorem State.drawn_w (s : State) : s.drawn.w = s.w := rfl
@[simp] theorem State.drawn_r (s : State) : s.drawn.r = s.r := rfl
@[simp] theorem State.drawn_hs (s : State) : s.drawn.hs = s.hs := rfl
@[simp] theorem State.drawn_dg (s : State) : s.drawn.dg = s.dg := rfl
@[simp] theorem State.drawn_done (s : State) : s.drawn.done = s.done := rfl
@[simp] theorem State.drawn_dvalid (s : State) : s.drawn.dvalid = s.dvalid := rfl
@[simp] theorem State.drawn_err (s : State) : s.drawn.err = s.err := rfl
@[simp] theorem State.drawn_cfg (s : State) : s.drawn.cfg = s.cfg := rfl
@[simp] theorem State.drawn_inputs (s : State) : s.drawn.inputs = s.inputs := rfl
@[simp] theorem State.drawn_replies (s : State) : s.drawn.replies = s.replies := rfl
@[simp] theorem State.drawn_draws (s : State) : s.drawn.draws = s.draws + 1 := rfl

/-! ### an input taken -/

@[simp] theorem State.withInputs_msg (s : State) (l : List Input) : (s.withInputs l).msg = s.msg := rfl
@[simp] theorem State.withInputs_len (s : State) (l : List Input) : (s.withInputs l).len = s.len := rfl
@[simp] theorem State.withInputs_pb (s : State) (l : List Input) : (s.withInputs l).pb = s.pb := rfl
@[simp] theorem State.withInputs_plen (s : State) (l : List Input) : (s.withInputs l).plen = s.plen := rfl
@[simp] theorem State.withInputs_nch (s : State) (l : List Input) : (s.withInputs l).nch = s.nch := rfl
@[simp] theorem State.withInputs_ci (s : State) (l : List Input) : (s.withInputs l).ci = s.ci := rfl
@[simp] theorem State.withInputs_t (s : State) (l : List Input) : (s.withInputs l).t = s.t := rfl
@[simp] theorem State.withInputs_phase (s : State) (l : List Input) : (s.withInputs l).phase = s.phase := rfl
@[simp] theorem State.withInputs_w (s : State) (l : List Input) : (s.withInputs l).w = s.w := rfl
@[simp] theorem State.withInputs_r (s : State) (l : List Input) : (s.withInputs l).r = s.r := rfl
@[simp] theorem State.withInputs_hs (s : State) (l : List Input) : (s.withInputs l).hs = s.hs := rfl
@[simp] theorem State.withInputs_dg (s : State) (l : List Input) : (s.withInputs l).dg = s.dg := rfl
@[simp] theorem State.withInputs_done (s : State) (l : List Input) : (s.withInputs l).done = s.done := rfl
@[simp] theorem State.withInputs_dvalid (s : State) (l : List Input) : (s.withInputs l).dvalid = s.dvalid := rfl
@[simp] theorem State.withInputs_err (s : State) (l : List Input) : (s.withInputs l).err = s.err := rfl
@[simp] theorem State.withInputs_cfg (s : State) (l : List Input) : (s.withInputs l).cfg = s.cfg := rfl
@[simp] theorem State.withInputs_inputs (s : State) (l : List Input) : (s.withInputs l).inputs = l := rfl
@[simp] theorem State.withInputs_replies (s : State) (l : List Input) : (s.withInputs l).replies = s.replies := rfl
@[simp] theorem State.withInputs_draws (s : State) (l : List Input) : (s.withInputs l).draws = s.draws := rfl

/-! ### the failed length check -/

@[simp] theorem State.lengthExceeded_msg (s : State) : s.lengthExceeded.msg = s.msg := rfl
@[simp] theorem State.lengthExceeded_len (s : State) : s.lengthExceeded.len = s.len := rfl
@[simp] theorem State.lengthExceeded_pb (s : State) : s.lengthExceeded.pb = s.pb := rfl
@[simp] theorem State.lengthExceeded_plen (s : State) : s.lengthExceeded.plen = s.plen := rfl
@[simp] theorem State.lengthExceeded_nch (s : State) : s.lengthExceeded.nch = s.nch := rfl
@[simp] theorem State.lengthExceeded_ci (s : State) : s.lengthExceeded.ci = s.ci := rfl
@[simp] theorem State.lengthExceeded_t (s : State) : s.lengthExceeded.t = s.t := rfl
@[simp] theorem State.lengthExceeded_phase (s : State) : s.lengthExceeded.phase = s.phase := rfl
@[simp] theorem State.lengthExceeded_w (s : State) : s.lengthExceeded.w = s.w := rfl
@[simp] theorem State.lengthExceeded_r (s : State) : s.lengthExceeded.r = s.r := rfl
@[simp] theorem State.lengthExceeded_hs (s : State) : s.lengthExceeded.hs = s.hs := rfl
@[simp] theorem State.lengthExceeded_dg (s : State) : s.lengthExceeded.dg = s.dg := rfl
@[simp] theorem State.lengthExceeded_done (s : State) : s.lengthExceeded.done = false := rfl
@[simp] theorem State.lengthExceeded_dvalid (s : State) : s.lengthExceeded.dvalid = s.dvalid := rfl
@[simp] theorem State.lengthExceeded_err (s : State) : s.lengthExceeded.err = .lengthExceeded := rfl
@[simp] theorem State.lengthExceeded_cfg (s : State) : s.lengthExceeded.cfg = s.cfg := rfl
@[simp] theorem State.lengthExceeded_inputs (s : State) : s.lengthExceeded.inputs = s.inputs := rfl
@[simp] theorem State.lengthExceeded_replies (s : State) : s.lengthExceeded.replies = s.replies := rfl
@[simp] theorem State.lengthExceeded_draws (s : State) : s.lengthExceeded.draws = s.draws := rfl

/-! ### the report cleared -/

@[simp] theorem State.clearReport_msg (s : State) : s.clearReport.msg = s.msg := rfl
@[simp] theorem State.clearReport_len (s : State) : s.clearReport.len = s.len := rfl
@[simp] theorem State.clearReport_pb (s : State) : s.clearReport.pb = s.pb := rfl
@[simp] theorem State.clearReport_plen (s : State) : s.clearReport.plen = s.plen := rfl
@[simp] theorem State.clearReport_nch (s : State) : s.clearReport.nch = s.nch := rfl
@[simp] theorem State.clearReport_ci (s : State) : s.clearReport.ci = s.ci := rfl
@[simp] theorem State.clearReport_t (s : State) : s.clearReport.t = s.t := rfl
@[simp] theorem State.clearReport_phase (s : State) : s.clearReport.phase = s.phase := rfl
@[simp] theorem State.clearReport_w (s : State) : s.clearReport.w = s.w := rfl
@[simp] theorem State.clearReport_r (s : State) : s.clearReport.r = s.r := rfl
@[simp] theorem State.clearReport_hs (s : State) : s.clearReport.hs = s.hs := rfl
@[simp] theorem State.clearReport_dg (s : State) : s.clearReport.dg = s.dg := rfl
@[simp] theorem State.clearReport_done (s : State) : s.clearReport.done = false := rfl
@[simp] theorem State.clearReport_dvalid (s : State) : s.clearReport.dvalid = s.dvalid := rfl
@[simp] theorem State.clearReport_err (s : State) : s.clearReport.err = .none := rfl
@[simp] theorem State.clearReport_cfg (s : State) : s.clearReport.cfg = s.cfg := rfl
@[simp] theorem State.clearReport_inputs (s : State) : s.clearReport.inputs = s.inputs := rfl
@[simp] theorem State.clearReport_replies (s : State) : s.clearReport.replies = s.replies := rfl
@[simp] theorem State.clearReport_draws (s : State) : s.clearReport.draws = s.draws := rfl

/-! ### completion -/

@[simp] theorem State.completed_msg (s : State) : s.completed.msg = s.msg := rfl
@[simp] theorem State.completed_len (s : State) : s.completed.len = s.len := rfl
@[simp] theorem State.completed_pb (s : State) : s.completed.pb = s.pb := rfl
@[simp] theorem State.completed_plen (s : State) : s.completed.plen = s.plen := rfl
@[simp] theorem State.completed_nch (s : State) : s.completed.nch = s.nch := rfl
@[simp] theorem State.completed_ci (s : State) : s.completed.ci = s.ci := rfl
@[simp] theorem State.completed_t (s : State) : s.completed.t = s.t := rfl
@[simp] theorem State.completed_phase (s : State) : s.completed.phase = s.phase := rfl
@[simp] theorem State.completed_w (s : State) : s.completed.w = s.w := rfl
@[simp] theorem State.completed_r (s : State) : s.completed.r = s.r := rfl
@[simp] theorem State.completed_hs (s : State) : s.completed.hs = s.hs := rfl
@[simp] theorem State.completed_dg (s : State) : s.completed.dg = s.dg := rfl
@[simp] theorem State.completed_done (s : State) : s.completed.done = true := rfl
@[simp] theorem State.completed_dvalid (s : State) : s.completed.dvalid = true := rfl
@[simp] theorem State.completed_err (s : State) : s.completed.err = s.err := rfl
@[simp] theorem State.completed_cfg (s : State) : s.completed.cfg = s.cfg := rfl
@[simp] theorem State.completed_inputs (s : State) : s.completed.inputs = s.inputs := rfl
@[simp] theorem State.completed_replies (s : State) : s.completed.replies = s.replies := rfl
@[simp] theorem State.completed_draws (s : State) : s.completed.draws = s.draws := rfl

/-! ### the flags cleared -/

@[simp] theorem State.clearFlags_msg (s : State) : s.clearFlags.msg = s.msg := rfl
@[simp] theorem State.clearFlags_len (s : State) : s.clearFlags.len = s.len := rfl
@[simp] theorem State.clearFlags_pb (s : State) : s.clearFlags.pb = s.pb := rfl
@[simp] theorem State.clearFlags_plen (s : State) : s.clearFlags.plen = s.plen := rfl
@[simp] theorem State.clearFlags_nch (s : State) : s.clearFlags.nch = s.nch := rfl
@[simp] theorem State.clearFlags_ci (s : State) : s.clearFlags.ci = s.ci := rfl
@[simp] theorem State.clearFlags_t (s : State) : s.clearFlags.t = s.t := rfl
@[simp] theorem State.clearFlags_phase (s : State) : s.clearFlags.phase = s.phase := rfl
@[simp] theorem State.clearFlags_w (s : State) : s.clearFlags.w = s.w := rfl
@[simp] theorem State.clearFlags_r (s : State) : s.clearFlags.r = s.r := rfl
@[simp] theorem State.clearFlags_hs (s : State) : s.clearFlags.hs = s.hs := rfl
@[simp] theorem State.clearFlags_dg (s : State) : s.clearFlags.dg = s.dg := rfl
@[simp] theorem State.clearFlags_done (s : State) : s.clearFlags.done = false := rfl
@[simp] theorem State.clearFlags_dvalid (s : State) : s.clearFlags.dvalid = false := rfl
@[simp] theorem State.clearFlags_err (s : State) : s.clearFlags.err = .none := rfl
@[simp] theorem State.clearFlags_cfg (s : State) : s.clearFlags.cfg = s.cfg := rfl
@[simp] theorem State.clearFlags_inputs (s : State) : s.clearFlags.inputs = s.inputs := rfl
@[simp] theorem State.clearFlags_replies (s : State) : s.clearFlags.replies = s.replies := rfl
@[simp] theorem State.clearFlags_draws (s : State) : s.clearFlags.draws = s.draws := rfl

/-! ### what RESET draws -/

@[simp] theorem State.scramble_msg (s : State) :
    s.scramble.msg = Memory.ofCells s.cfg.msgCap (Config.drawMsg s.draws) := rfl
@[simp] theorem State.scramble_len (s : State) :
    s.scramble.len = Config.drawLen s.draws % (s.cfg.msgCap + 1) := rfl
@[simp] theorem State.scramble_pb (s : State) :
    s.scramble.pb = Memory.ofCells s.cfg.pbCap (Config.drawPb s.draws) := rfl
@[simp] theorem State.scramble_plen (s : State) :
    s.scramble.plen = 64 * (1 + Config.drawPlen s.draws % (s.cfg.pbCap / 64)) := rfl
@[simp] theorem State.scramble_nch (s : State) :
    s.scramble.nch = Config.drawNch s.draws % (s.cfg.pbCap / 64 + 1) := rfl
@[simp] theorem State.scramble_ci (s : State) :
    s.scramble.ci = Config.drawCi s.draws % (s.cfg.pbCap / 64 + 1) := rfl
@[simp] theorem State.scramble_t (s : State) : s.scramble.t = Config.drawT s.draws := rfl
@[simp] theorem State.scramble_w (s : State) : s.scramble.w = Config.drawW s.draws := rfl
@[simp] theorem State.scramble_r (s : State) : s.scramble.r = Config.drawR s.draws := rfl
@[simp] theorem State.scramble_hs (s : State) : s.scramble.hs = Config.drawHs s.draws := rfl
@[simp] theorem State.scramble_dg (s : State) : s.scramble.dg = Config.drawDg s.draws := rfl
@[simp] theorem State.scramble_phase (s : State) : s.scramble.phase = s.phase := rfl
@[simp] theorem State.scramble_done (s : State) : s.scramble.done = s.done := rfl
@[simp] theorem State.scramble_dvalid (s : State) : s.scramble.dvalid = s.dvalid := rfl
@[simp] theorem State.scramble_err (s : State) : s.scramble.err = s.err := rfl
@[simp] theorem State.scramble_cfg (s : State) : s.scramble.cfg = s.cfg := rfl
@[simp] theorem State.scramble_inputs (s : State) : s.scramble.inputs = s.inputs := rfl
@[simp] theorem State.scramble_replies (s : State) : s.scramble.replies = s.replies := rfl
@[simp] theorem State.scramble_draws (s : State) : s.scramble.draws = s.draws + 1 := rfl

end Sys2Proof.Machine
end

