-- ==== Sys2Proof/Laws/Step.lean ====
section
/-!
SUPPORT. What one step can be, said once, and runs of several steps.
-/
namespace Sys2Proof.Machine

@[simp] theorem ofCode_code (p : Phase) : Phase.ofCode p.code = p := by cases p <;> rfl

@[simp] theorem decode_uop_code (p : Phase) : decode (.uop p.code) = decodePhase p := by
  simp [decode]

theorem busy_iff {s : State} : s.busy = true ↔ s.phase ≠ .idle := by simp [State.busy]

theorem not_busy_iff {s : State} : s.busy = false ↔ s.phase = .idle := by simp [State.busy]

theorem engineSelector_busy {s : State} (h : s.phase ≠ .idle) :
    s.engineSelector = .uop s.phase.code := by
  simp [State.engineSelector, busy_iff.mpr h]

theorem engineSelector_idle {s : State} (h : s.phase = .idle) :
    s.engineSelector = .cmd cmdNop none := by
  simp [State.engineSelector, not_busy_iff.mpr h]

/-- The next state comes from exactly one operation. -/
theorem step_eq_next {s t : State} : step s = .next t ↔
    ∃ i, decode s.fetch.1 = .ok i ∧ exec i s.fetch.2 = .next t := by
  unfold step
  cases h : decode s.fetch.1 with
  | ok i => simp
  | error e => cases e <;> simp [undecoded]

/-- What fetching can select: the engine's operation, RESET, or a command, SUBMIT only when idle; the
state differs from `s` in its inputs only. -/
theorem fetch_cases (s : State) : ∃ l, s.fetch.2 = s.withInputs l ∧
    (s.fetch.1 = s.engineSelector ∨ s.fetch.1 = .sig 1 ∨
      ∃ code operands, s.fetch.1 = .cmd code operands ∧ (code = cmdSubmit → s.phase = .idle)) := by
  unfold State.fetch
  split
  · exact ⟨s.inputs, rfl, .inl rfl⟩
  · exact ⟨_, rfl, .inl rfl⟩
  · exact ⟨_, rfl, .inr (.inl rfl)⟩
  · rename_i code operands rest _
    split
    · exact ⟨s.inputs, rfl, .inl rfl⟩
    · rename_i h
      refine ⟨rest, rfl, .inr (.inr ⟨code, operands, rfl, fun hc => ?_⟩)⟩
      by_contra hp
      exact h ⟨hc, busy_iff.mpr hp⟩

/-- What one step can do: a micro-operation of a busy engine, or NOP, RESULT, STATUS or RESET, or a
SUBMIT of exactly `L` bytes to an idle engine; each on the state with some inputs. -/
theorem step_cases {s t : State} (h : step s = .next t) : ∃ i l, exec i (s.withInputs l) = .next t ∧
    ((s.phase ≠ .idle ∧ decodePhase s.phase = .ok i) ∨ i = .nop ∨ i = .result ∨ i = .status ∨
      i = .reset ∨ ∃ L p, i = .submit L p ∧ p.length = L ∧ s.phase = .idle) := by
  obtain ⟨i, hd, he⟩ := step_eq_next.mp h
  obtain ⟨l, h2, h1⟩ := fetch_cases s
  rw [h2] at he
  refine ⟨i, l, he, ?_⟩
  rcases h1 with h1 | h1 | ⟨code, operands, h1, hs⟩
  · by_cases hp : s.phase = .idle
    · rw [h1, engineSelector_idle hp] at hd
      simp [decode, decodeCmd, decodePlain, cmdNop] at hd
      exact .inr (.inl hd.symm)
    · rw [h1, engineSelector_busy hp, decode_uop_code] at hd
      exact .inl ⟨hp, hd⟩
  · rw [h1] at hd
    simp [decode, decodeSig] at hd
    simp [← hd]
  · rw [h1] at hd
    simp only [decode, decodeCmd] at hd
    split at hd
    · cases operands <;> simp [decodePlain] at hd
      simp [← hd]
    · split at hd
      · cases operands with
        | none => simp [decodeSubmit] at hd
        | some o =>
          obtain ⟨L, p⟩ := o
          simp only [decodeSubmit] at hd
          split at hd
          · cases hd
            exact .inr (.inr (.inr (.inr (.inr ⟨L, p, rfl, ‹_›, hs ‹_›⟩))))
          · cases hd
      · split at hd <;> cases operands <;> simp [decodePlain] at hd <;> simp [← hd]

/-- With no input left, the micro-operation PHASE selects. -/
theorem step_engine {s : State} {i : Instr} (hin : s.inputs = []) (hd : decodePhase s.phase = .ok i) :
    step s = exec i s := by
  have hp : s.phase ≠ .idle := by
    intro h; rw [h] at hd; cases hd
  have hf : s.fetch = (.uop s.phase.code, s) := by
    unfold State.fetch
    simp [hin, engineSelector_busy hp]
  simp [step, hf, hd]

/-! ### The schedule is not the engine's: no operation reads or writes it -/

/-- The outcome with `f` applied to its next state. -/
def mapNext (f : State → State) : Result → Result
  | .next t => .next (f t)
  | .fault r => .fault r
  | .refused r => .refused r

theorem mapNext_ite (f : State → State) (c : Prop) [Decidable c] (a b : Result) :
    mapNext f (if c then a else b) = if c then mapNext f a else mapNext f b := by
  split <;> rfl

/-- No operation reads or writes the inputs. -/
theorem exec_withInputs (i : Instr) (s : State) (l : List Input) :
    exec i (s.withInputs l) = mapNext (fun t => t.withInputs l) (exec i s) := by
  cases i <;>
    simp only [exec, execNop, execSubmit, execResult, execStatus, execPsize, execPzero, execPcopy,
      execPstop, execPlenf, execChunk, execInit, execWload, execWexp, execRload, execRound, execFeed,
      execNext, execEmit, execReset, mapNext_ite] <;> rfl

theorem exec_inputs {i : Instr} {s t : State} (h : exec i s = .next t) : t.inputs = s.inputs := by
  have e := exec_withInputs i s s.inputs
  rw [show s.withInputs s.inputs = s from rfl, h] at e
  injection e with e
  rw [e]; rfl

/-! ### Runs -/

@[simp] theorem stepN_zero (s : State) : stepN 0 s = .next s := rfl

theorem stepN_succ_next {n : Nat} {s t : State} (h : step s = .next t) :
    stepN (n + 1) s = stepN n t := by
  rw [stepN, h]

theorem stepN_succ_fault {n : Nat} {s : State} {r : Fault} (h : step s = .fault r) :
    stepN (n + 1) s = .fault r := by
  rw [stepN, h]

theorem stepN_succ_refused {n : Nat} {s : State} {r : Refusal} (h : step s = .refused r) :
    stepN (n + 1) s = .refused r := by
  rw [stepN, h]

/-- A run of `m + n` steps is a run of `m` and then one of `n`. -/
theorem stepN_add {m n : Nat} {s t : State} (h : stepN m s = .next t) :
    stepN (m + n) s = stepN n t := by
  induction m generalizing s with
  | zero => simp at h; subst h; simp
  | succ m ih =>
    rw [show m + 1 + n = m + n + 1 by omega]
    cases hs : step s with
    | next u => rw [stepN_succ_next hs] at h; rw [stepN_succ_next hs]; exact ih h
    | fault r => rw [stepN_succ_fault hs] at h; cases h
    | refused r => rw [stepN_succ_refused hs] at h; cases h

theorem stepN_one {s t : State} (h : step s = .next t) : stepN 1 s = .next t := by
  rw [stepN_succ_next h, stepN_zero]

theorem run_succ_next (M : Host.Core) {n : Nat} {s t : M.State} (h : M.step s = .next t) :
    M.run (n + 1) s = M.run n t := by rw [Host.Core.run, h]

theorem run_succ_fault (M : Host.Core) {n : Nat} {s : M.State} {r : M.Fault}
    (h : M.step s = .fault r) : M.run (n + 1) s = .fault r := by rw [Host.Core.run, h]

theorem run_succ_refused (M : Host.Core) {n : Nat} {s : M.State} {r : M.Refusal}
    (h : M.step s = .refused r) : M.run (n + 1) s = .refused r := by rw [Host.Core.run, h]

/-- Runs are the host's runs of the machine. -/
theorem stepN_eq_run (n : Nat) : ∀ s : State, stepN n s = Sys2Proof.core.run n s := by
  induction n with
  | zero => intro s; rfl
  | succ n ih =>
    intro s
    cases h : step s with
    | next t => rw [stepN_succ_next h, ih]; exact (run_succ_next Sys2Proof.core h).symm
    | fault r => rw [stepN_succ_fault h]; exact (run_succ_fault Sys2Proof.core h).symm
    | refused r => rw [stepN_succ_refused h]; exact (run_succ_refused Sys2Proof.core h).symm

end Sys2Proof.Machine
end

