-- ==== Sys2Proof/Laws/Run.lean ====
section
/-!
SUPPORT. Runs: what the loops of the sequencer leave after `k` steps (WLOAD, WEXP, ROUND), the schedule as
a function of the chunk, and that an engine busy at the end of a run was busy all along.
-/
namespace Sys2Proof.Machine

/-! ### Single steps and prefixes of runs -/

/-- In IDLE with no input nothing happens (00_scope.md R15, log 1). -/
theorem step_idle {s : State} (hp : s.phase = .idle) (hin : s.inputs = []) : step s = .next s := by
  simp [step, State.fetch, hin, engineSelector_idle hp, decode, decodeCmd, cmdNop, decodePlain, exec,
    execNop]

/-- An idle engine with no input stays. -/
theorem stepN_idle {s : State} (hp : s.phase = .idle) (hin : s.inputs = []) (n : Nat) :
    stepN n s = .next s := by
  induction n with
  | zero => rfl
  | succ n ih => rw [stepN_succ_next (step_idle hp hin), ih]

theorem step_inputs_nil {s t : State} (hin : s.inputs = []) (h : step s = .next t) : t.inputs = [] := by
  obtain ⟨i, -, he⟩ := step_eq_next.mp h
  have : s.fetch.2 = s := by simp [State.fetch, hin]
  rw [this] at he
  rw [exec_inputs he, hin]

theorem stepN_inputs_nil {n : Nat} {s t : State} (hin : s.inputs = []) (h : stepN n s = .next t) :
    t.inputs = [] := by
  induction n generalizing s with
  | zero => cases h; exact hin
  | succ n ih =>
    cases hs : step s with
    | next u => rw [stepN_succ_next hs] at h; exact ih (step_inputs_nil hin hs) h
    | fault r => rw [stepN_succ_fault hs] at h; cases h
    | refused r => rw [stepN_succ_refused hs] at h; cases h

/-- A run that ends in a next state passes through one at every step before. -/
theorem stepN_prefix {m n : Nat} {s t : State} (hmn : m ≤ n) (h : stepN n s = .next t) :
    ∃ u, stepN m s = .next u ∧ stepN (n - m) u = .next t := by
  induction m generalizing s n with
  | zero => exact ⟨s, rfl, h⟩
  | succ m ih =>
    obtain ⟨n, rfl⟩ : ∃ n', n = n' + 1 := ⟨n - 1, by omega⟩
    cases hs : step s with
    | next u =>
      rw [stepN_succ_next hs] at h
      obtain ⟨v, h1, h2⟩ := ih (by omega) h
      exact ⟨v, by rw [stepN_succ_next hs, h1], by rwa [Nat.add_sub_add_right]⟩
    | fault r => rw [stepN_succ_fault hs] at h; cases h
    | refused r => rw [stepN_succ_refused hs] at h; cases h

/-- If the engine is busy at the end of a run with no input, it was busy all along. -/
theorem busy_before {m n : Nat} {s t : State} (hin : s.inputs = []) (hmn : m ≤ n)
    (h : stepN n s = .next t) (ht : t.phase ≠ .idle) : ∃ u, stepN m s = .next u ∧ u.phase ≠ .idle := by
  obtain ⟨u, h1, h2⟩ := stepN_prefix hmn h
  refine ⟨u, h1, fun hu => ht ?_⟩
  rw [stepN_idle hu (stepN_inputs_nil hin h1)] at h2
  cases h2
  exact hu

/-- One engine step of a run. -/
theorem stepN_succ_engine {n : Nat} {s t : State} {i : Instr} (hin : s.inputs = [])
    (hd : decodePhase s.phase = .ok i) (he : exec i s = .next t) : stepN (n + 1) s = stepN n t :=
  stepN_succ_next ((step_engine hin hd).trans he)

/-- `n + 1` steps are `n` and one more. -/
theorem stepN_succ_last {n : Nat} {s t u : State} (h : stepN n s = .next t) (hs : step t = .next u) :
    stepN (n + 1) s = .next u := by
  rw [stepN_add h, stepN_one hs]

/-! ### The functions of whole loops, one index more -/

theorem loadWords_snoc (b : Nat → Byte) (w : Vector Word 64) (k : Nat) :
    loadWords b w (List.range (k + 1)) = wSet (loadWords b w (List.range k)) k
      (packWord (b (4 * k)) (b (4 * k + 1)) (b (4 * k + 2)) (b (4 * k + 3))) := by
  simp [List.range_succ, loadWords]

theorem expandWords_snoc (w : Vector Word 64) (k : Nat) :
    expandWords w (List.range' 16 (k + 1)) =
      wSet (expandWords w (List.range' 16 k)) (16 + k)
        (expandWord (wAt (expandWords w (List.range' 16 k)) (16 + k - 16))
          (wAt (expandWords w (List.range' 16 k)) (16 + k - 15))
          (wAt (expandWords w (List.range' 16 k)) (16 + k - 7))
          (wAt (expandWords w (List.range' 16 k)) (16 + k - 2))) := by
  simp [List.range'_concat, expandWords]

theorem rounds_snoc (x : Vector Word 64) (r : Words8) (k : Nat) :
    rounds x r (List.range (k + 1)) =
      roundWords (rounds x r (List.range k)) (kAt k) (wAt x k) := by
  simp [List.range_succ, rounds]

/-! ### The three loops of the sequencer -/

/-- `k` WLOAD steps from T 0. -/
theorem run_wload {s : State} (hp : s.phase = .wload) (ht : s.t = 0) (hin : s.inputs = [])
    (hb : 64 * s.ci + 64 ≤ s.cfg.pbCap) (k : Nat) (hk : k ≤ 16) :
    stepN k s = .next { s with
      w := loadWords (fun j => s.pb.read (64 * s.ci + j)) s.w (List.range k)
      t := Fin.ofNat 65 k
      phase := if k = 16 then .wexp else .wload } := by
  induction k with
  | zero =>
    simp only [stepN_zero]
    cases s
    simp_all [loadWords]
  | succ k ih =>
    refine stepN_succ_last (ih (by omega)) ?_
    rw [if_neg (by omega)]
    refine Eq.trans (step_engine (i := .wload) ?_ ?_) ?_
    · exact hin
    · rfl
    simp only [exec]
    refine execWload_eq_next.mpr ⟨by simp; omega, by simp [State.chunkWordAddr]; omega, ?_⟩
    simp only [State.goto, State.chunkWord, State.chunkWordAddr, Memory.readWord, loadWords_snoc, Nat.add_assoc,
      index_val k (show k ≤ 64 by omega), indexUp_ofNat k (by omega)]
    by_cases h : k = 15
    · subst h; rfl
    · simp [h, show ¬ k + 1 = 16 by omega]

/-- `k` WEXP steps from T 16. -/
theorem run_wexp {s : State} (hp : s.phase = .wexp) (ht : s.t = 16) (hin : s.inputs = [])
    (k : Nat) (hk : k ≤ 48) :
    stepN k s = .next { s with
      w := expandWords s.w (List.range' 16 k)
      t := Fin.ofNat 65 (16 + k)
      phase := if k = 48 then .rload else .wexp } := by
  induction k with
  | zero =>
    simp only [stepN_zero]
    cases s
    simp_all [expandWords]
  | succ k ih =>
    refine stepN_succ_last (ih (by omega)) ?_
    rw [if_neg (by omega)]
    refine Eq.trans (step_engine (i := .wexp) ?_ ?_) ?_
    · exact hin
    · rfl
    simp only [exec]
    refine execWexp_eq_next.mpr ⟨by simp; omega, ?_⟩
    simp only [State.goto, State.wBack, expandWords_snoc, index_val (16 + k) (show 16 + k ≤ 64 by omega),
      indexUp_ofNat (16 + k) (by omega), Nat.add_assoc]
    by_cases h : k = 47
    · subst h; rfl
    · simp [show ¬ 16 + k = 63 by omega, show ¬ k + 1 = 48 by omega]

/-- `k` ROUND steps from T 0. -/
theorem run_round {s : State} (hp : s.phase = .round) (ht : s.t = 0) (hin : s.inputs = [])
    (k : Nat) (hk : k ≤ 64) :
    stepN k s = .next { s with
      r := rounds s.w s.r (List.range k)
      t := Fin.ofNat 65 k
      phase := if k = 64 then .feed else .round } := by
  induction k with
  | zero =>
    simp only [stepN_zero]
    cases s
    simp_all [rounds]
  | succ k ih =>
    refine stepN_succ_last (ih (by omega)) ?_
    rw [if_neg (by omega)]
    refine Eq.trans (step_engine (i := .round) ?_ ?_) ?_
    · exact hin
    · rfl
    simp only [exec]
    refine execRound_eq_next.mpr ⟨by simp; omega, ?_⟩
    simp only [State.goto, State.kT, State.wT, rounds_snoc, index_val k (show k ≤ 64 by omega),
      indexUp_ofNat k (by omega)]
    by_cases h : k = 63
    · subst h; rfl
    · simp [h, show ¬ k + 1 = 64 by omega]

/-! ### The schedule's words -/

theorem wAt_loadWords (b : Nat → Byte) (w : Vector Word 64) (k : Nat) (hk : k ≤ 16) (i : Nat) :
    wAt (loadWords b w (List.range k)) i =
      if i < k then packWord (b (4 * i)) (b (4 * i + 1)) (b (4 * i + 2)) (b (4 * i + 3)) else wAt w i := by
  induction k with
  | zero => simp [loadWords]
  | succ k ih =>
    rw [loadWords_snoc, wAt_wSet _ _ _ _ (by omega), ih (by omega)]
    by_cases h : i = k
    · subst h; simp
    · by_cases h' : i < k
      · simp [h, h', show i < k + 1 by omega]
      · simp [h, h', show ¬ i < k + 1 by omega]

/-- Words below 16 stay, and the others obey the recurrence. -/
theorem wAt_expandWords_low (w : Vector Word 64) (k : Nat) (hk : k ≤ 48) (i : Nat)
    (hi : i < 16 ∨ 16 + k ≤ i) : wAt (expandWords w (List.range' 16 k)) i = wAt w i := by
  induction k with
  | zero => rfl
  | succ k ih =>
    rw [expandWords_snoc, wAt_wSet _ _ _ _ (by omega), if_neg (by omega), ih (by omega) (by omega)]

theorem wAt_expandWords_high (w : Vector Word 64) (k : Nat) (hk : k ≤ 48) (i : Nat)
    (h16 : 16 ≤ i) (hi : i < 16 + k) :
    wAt (expandWords w (List.range' 16 k)) i =
      expandWord (wAt (expandWords w (List.range' 16 k)) (i - 16))
        (wAt (expandWords w (List.range' 16 k)) (i - 15))
        (wAt (expandWords w (List.range' 16 k)) (i - 7))
        (wAt (expandWords w (List.range' 16 k)) (i - 2)) := by
  induction k with
  | zero => omega
  | succ k ih =>
    rw [expandWords_snoc]
    simp only [wAt_wSet _ (16 + k) _ _ (show 16 + k < 64 by omega)]
    rw [if_neg (show ¬ i - 16 = 16 + k by omega), if_neg (show ¬ i - 15 = 16 + k by omega),
      if_neg (show ¬ i - 7 = 16 + k by omega), if_neg (show ¬ i - 2 = 16 + k by omega)]
    by_cases h : i = 16 + k
    · rw [if_pos h, h]
    · rw [if_neg h, ih (by omega) (by omega)]

/-- The expansion depends on the first 16 words only. -/
theorem expandWords_congr {w w' : Vector Word 64} (h : ∀ i, i < 16 → wAt w i = wAt w' i) (k : Nat)
    (hk : k ≤ 48) (i : Nat) (hi : i < 16 + k) :
    wAt (expandWords w (List.range' 16 k)) i = wAt (expandWords w' (List.range' 16 k)) i := by
  induction i using Nat.strongRecOn with
  | _ i ih =>
    by_cases h16 : i < 16
    · rw [wAt_expandWords_low w k hk i (.inl h16), wAt_expandWords_low w' k hk i (.inl h16), h i h16]
    · rw [wAt_expandWords_high w k hk i (by omega) hi, wAt_expandWords_high w' k hk i (by omega) hi,
        ih (i - 16) (by omega) (by omega), ih (i - 15) (by omega) (by omega),
        ih (i - 7) (by omega) (by omega), ih (i - 2) (by omega) (by omega)]

/-- The schedule does not depend on what W held before (43_schedule.md R127). -/
theorem schedule_any (b : Nat → Byte) (w : Vector Word 64) :
    expandWords (loadWords b w (List.range 16)) (List.range' 16 48) = schedule b := by
  apply schedule_ext
  intro i hi
  unfold schedule
  apply expandWords_congr _ 48 (le_refl _) i (by omega)
  intro j hj
  rw [wAt_loadWords _ _ 16 (le_refl _), wAt_loadWords _ _ 16 (le_refl _), if_pos hj, if_pos hj]

/-- Nor on anything but the chunk's 64 bytes. -/
theorem schedule_congr {b b' : Nat → Byte} (h : ∀ k, k < 64 → b k = b' k) : schedule b = schedule b' := by
  apply schedule_ext
  intro i hi
  unfold schedule
  apply expandWords_congr _ 48 (le_refl _) i (by omega)
  intro j hj
  rw [wAt_loadWords _ _ 16 (le_refl _), wAt_loadWords _ _ 16 (le_refl _), if_pos hj, if_pos hj,
    h _ (by omega), h _ (by omega), h _ (by omega), h _ (by omega)]

end Sys2Proof.Machine
end

