-- ==== Sys2Proof/Tests/Slice0.lean ====
section
/-!
SUPPORT. Tests. Expected values are those of spec/95_test_vectors.md (the id of the vector is named) and
of the worked values in the rules, never the model's own answers. The witnesses at the end show, for every
statement with hypotheses, a state and operands that meet them.
-/
namespace Sys2Proof.Tests
open Sys2Proof Sys2Proof.Machine

/-- What `f` reads in the next state, if there is one. -/
def after {α : Type} (f : State → α) : Result → Option α
  | .next t => some (f t)
  | .fault _ => none
  | .refused _ => none

/-- The outcome is a next state. -/
def completes (r : Result) : Bool := (after (fun _ => ()) r).isSome

/-- The fault, if the outcome is one. -/
def faultOf : Result → Option Fault
  | .next _ => none
  | .fault r => some r
  | .refused _ => none

/-- The refusal, if the outcome is one. -/
def refusalOf : Result → Option Refusal
  | .next _ => none
  | .fault _ => none
  | .refused r => some r

/-- An idle engine with `MSG_CAP = 120` and `PB_CAP = PB_CAP_FULL = 192`. -/
def base : State := State.resetWith ⟨120, 192⟩

/-- The engine of `base` at a micro-operation with index `t`. -/
def at' (p : Phase) (t : Index) : State := { base with phase := p, t := t }

/-- "abc" (vector S2). -/
def abc : List Byte := [0x61, 0x62, 0x63]

/-- `SHA256("abc")` as words (vector S2). -/
def abcDigest : Words8 :=
  ⟨0xba7816bf, 0x8f01cfea, 0x414140de, 0x5dae2223, 0xb00361a3, 0x96177a9c, 0xb410ff61, 0xf20015ad⟩

/-! ### WellFormed: an ill-formed term for the one check -/

theorem test_wf_refuses_short_payload : (Instr.submit 4 abc).wf = false := by decide
theorem test_wf_refuses_long_payload : (Instr.submit 2 abc).wf = false := by decide
theorem test_wf_accepts_exact_payload : (Instr.submit 3 abc).wf = true := by decide

/-! ### Decode: every code of 30_encoding.md R72 and R75, written out bit by bit -/

theorem test_decode_nop : decode (.cmd 0b00 none) = .ok .nop := rfl
theorem test_decode_submit : decode (.cmd 0b01 (some (3, abc))) = .ok (.submit 3 abc) := rfl
theorem test_decode_result : decode (.cmd 0b10 none) = .ok .result := rfl
theorem test_decode_status : decode (.cmd 0b11 none) = .ok .status := rfl
theorem test_decode_psize : decode (.uop 0b0001) = .ok .psize := rfl
theorem test_decode_pzero : decode (.uop 0b0010) = .ok .pzero := rfl
theorem test_decode_pcopy : decode (.uop 0b0011) = .ok .pcopy := rfl
theorem test_decode_pstop : decode (.uop 0b0100) = .ok .pstop := rfl
theorem test_decode_plenf : decode (.uop 0b0101) = .ok .plenf := rfl
theorem test_decode_chunk : decode (.uop 0b0110) = .ok .chunk := rfl
theorem test_decode_init : decode (.uop 0b0111) = .ok .init := rfl
theorem test_decode_wload : decode (.uop 0b1000) = .ok .wload := rfl
theorem test_decode_wexp : decode (.uop 0b1001) = .ok .wexp := rfl
theorem test_decode_rload : decode (.uop 0b1010) = .ok .rload := rfl
theorem test_decode_round : decode (.uop 0b1011) = .ok .round := rfl
theorem test_decode_feed : decode (.uop 0b1100) = .ok .feed := rfl
theorem test_decode_next : decode (.uop 0b1101) = .ok .next := rfl
theorem test_decode_emit : decode (.uop 0b1110) = .ok .emit := rfl
theorem test_decode_reset : decode (.sig 0b1) = .ok .reset := rfl

theorem test_decode_refuses_idle : decode (.uop 0b0000) = .error .idlePhase := rfl
theorem test_decode_refuses_reserved : decode (.uop 0b1111) = .error .reservedPhase := rfl
theorem test_decode_refuses_low_line : decode (.sig 0b0) = .error .resetInactive := rfl
theorem test_decode_refuses_bare_submit : decode (.cmd 0b01 none) = .error .operandsMissing := rfl
theorem test_decode_refuses_nop_operands :
    decode (.cmd 0b00 (some (0, []))) = .error .operandsUnexpected := rfl
theorem test_decode_refuses_short_payload :
    decode (.cmd 0b01 (some (4, abc))) = .error .payloadLength := rfl

/-- The table's rows at the widths it states (30_encoding.md R82). -/
theorem test_table_rows :
    decodeTableWord 2 0 = some .nop ∧ decodeTableWord 2 1 = some (.submit 0 []) ∧
    decodeTableWord 2 2 = some .result ∧ decodeTableWord 2 3 = some .status ∧
    decodeTableWord 4 1 = some .psize ∧ decodeTableWord 4 0xE = some .emit ∧
    decodeTableWord 4 0 = none ∧ decodeTableWord 4 0xF = none ∧
    decodeTableWord 1 1 = some .reset ∧ decodeTableWord 1 0 = none := by decide

/-- The same rows at a width rounded up to the byte (log 12). -/
theorem test_table_rows_in_bytes :
    decodeTableWord 8 1 = some (.submit 0 []) ∧ decodeTableWord 8 3 = some .status ∧
    decodeTableWord 8 4 = some .pstop ∧ decodeTableWord 8 0xB = some .round ∧
    decodeTableWord 8 0xF = none ∧ decodeTableWord 8 0x10 = none := by decide

/-- A placed operation is the one the next step runs: SUBMIT "" starts, ROUND runs round 0, RESET idles. -/
theorem test_placed_words_run :
    after State.phase (step (base.withFetchWord 2 1)) = some .psize ∧
    after State.t (step (base.withFetchWord 4 0xB)) = some 1 ∧
    after State.dg (step (base.withFetchWord 4 0xE)) = some base.hs ∧
    after State.phase (step (base.withFetchWord 1 1)) = some .idle ∧
    after State.replies (step (base.withFetchWord 8 3)) = some [.status 0x00] := by decide

/-! ### Arithmetic (95_test_vectors.md section 2) -/

theorem test_add32 : add32 0xffffffff 1 = 0 ∧ add32 0x6a09e667 0x506e3058 = 0xba7816bf := by decide
theorem test_rotr : rotr 0x12345678 7 = 0xf02468ac ∧ rotr 0x12345678 25 = 0x1a2b3c09 := by decide
theorem test_shr : shr 0x80000000 3 = 0x10000000 ∧ shr 0x12345678 10 = 0x00048d15 := by decide
theorem test_sigma0 : sigma0 0x12345678 = 0xe7fce6ee ∧ sigma0 0x61626380 = 0x940e90ef := by decide
theorem test_sigma1 : sigma1 0x12345678 = 0xa1f78649 ∧ sigma1 0x80000000 = 0x00205000 := by decide
theorem test_bigSigma0 :
    bigSigma0 0x12345678 = 0x66146474 ∧ bigSigma0 0x6a09e667 = 0xce20b47e := by decide
theorem test_bigSigma1 :
    bigSigma1 0x12345678 = 0x3561abda ∧ bigSigma1 0x510e527f = 0x3587272b := by decide
theorem test_ch : ch 0x510e527f 0x9b05688c 0x1f83d9ab = 0x1f85c98c := by decide
theorem test_maj : maj 0x6a09e667 0xbb67ae85 0x3c6ef372 = 0x3a6fe667 := by decide

/-- The first 64 primes. -/
def primes : List Nat :=
  [2, 3, 5, 7, 11, 13, 17, 19, 23, 29, 31, 37, 41, 43, 47, 53] ++
  [59, 61, 67, 71, 73, 79, 83, 89, 97, 101, 103, 107, 109, 113, 127, 131] ++
  [137, 139, 149, 151, 157, 163, 167, 173, 179, 181, 191, 193, 197, 199, 211, 223] ++
  [227, 229, 233, 239, 241, 251, 257, 263, 269, 271, 277, 281, 283, 293, 307, 311]

/-- `k` is the first 32 bits of the fractional part of the cube root of `p`. -/
def isCubeRootFraction (p k : Nat) : Bool :=
  (List.range 7).any fun q =>
    decide ((q * 2 ^ 32 + k) ^ 3 ≤ p * 2 ^ 96) && decide (p * 2 ^ 96 < (q * 2 ^ 32 + k + 1) ^ 3)

/-- `k` is the first 32 bits of the fractional part of the square root of `p`. -/
def isSquareRootFraction (p k : Nat) : Bool :=
  (List.range 5).any fun q =>
    decide ((q * 2 ^ 32 + k) ^ 2 ≤ p * 2 ^ 64) && decide (p * 2 ^ 64 < (q * 2 ^ 32 + k + 1) ^ 2)

/-- The whole table K against the derivation that 40_arith.md R93 states. -/
theorem test_k_table : kTable.length = 64 ∧
    (primes.zip kTable).all (fun x => isCubeRootFraction x.1 x.2.toNat) = true := by
  refine ⟨by decide, by decide⟩

/-- IV against the derivation that 40_arith.md R101 states. -/
theorem test_iv_table :
    (primes.zip [iv.w0, iv.w1, iv.w2, iv.w3, iv.w4, iv.w5, iv.w6, iv.w7]).all
      (fun x => isSquareRootFraction x.1 x.2.toNat) = true := by decide

/-- Vectors E1, E5, E6, E11, E12, E15, E16: the padded length. -/
theorem test_padded_lengths :
    paddedLen 0 = 64 ∧ paddedLen 55 = 64 ∧ paddedLen 56 = 128 ∧ paddedLen 119 = 128 ∧
    paddedLen 120 = 192 ∧ paddedLen (2 ^ 32) = 4294967360 ∧
    paddedLen (2 ^ 61 - 1) = 2305843009213694016 := by decide

/-- Vectors E5, E15, E16: the length field. -/
theorem test_length_fields :
    beBytes 8 (8 * 55) = [0, 0, 0, 0, 0, 0, 0x01, 0xb8] ∧
    beBytes 8 (8 * 2 ^ 32) = [0, 0, 0, 0x08, 0, 0, 0, 0] ∧
    beBytes 8 (8 * (2 ^ 61 - 1)) = [0xff, 0xff, 0xff, 0xff, 0xff, 0xff, 0xff, 0xf8] := by decide

/-! ### Memory -/

theorem test_memory_canonical :
    Memory.write (Memory.write (Memory.write [] 5 1) 2 7) 5 0 = [(2, 7)] ∧
    Memory.writeBytes [] 3 [1, 0, 2] = [(3, 1), (5, 2)] := by decide

theorem test_memory_big_endian : Memory.readWord (Memory.writeBytes [] 4 [1, 2, 3, 4]) 4 = 0x01020304 := by
  decide

/-! ### Host commands (vectors H1 to H12) -/

/-- H1. -/
theorem test_submit_stages :
    after (fun t => (t.msg.readBytes 0 3, t.len, t.phase, t.err, t.done))
      (exec (.submit 3 abc) { base with err := .allocationFailure, done := true }) =
      some (abc, 3, .psize, .none, false) := by decide

/-- H4: one byte more than `MSG_CAP = 64`: nothing staged. -/
theorem test_submit_over_long :
    after (fun t => (t.msg, t.len, t.phase, t.err, t.done))
      (exec (.submit 65 (List.replicate 65 0x61)) { base with cfg := ⟨64, 128⟩, done := true }) =
      some ([], 0, .idle, .lengthExceeded, false) := by decide

/-- H5. -/
theorem test_submit_held :
    after State.phase (exec (.submit 1 [0x78]) (at' .round 17)) = some .round := by decide

/-- H6. -/
theorem test_result_bytes :
    after State.replies (exec .result { base with dg := abcDigest, dvalid := true }) =
      some [.digest ([0xba, 0x78, 0x16, 0xbf] ++ [0x8f, 0x01, 0xcf, 0xea] ++ [0x41, 0x41, 0x40, 0xde] ++
        [0x5d, 0xae, 0x22, 0x23] ++ [0xb0, 0x03, 0x61, 0xa3] ++ [0x96, 0x17, 0x7a, 0x9c] ++
        [0xb4, 0x10, 0xff, 0x61] ++ [0xf2, 0x00, 0x15, 0xad])] := by decide

/-- H9, H10. -/
theorem test_status_words :
    after State.replies (exec .status { base with done := true, dvalid := true }) = some [.status 0x05] ∧
    after State.replies (exec .status (at' .wexp 16)) = some [.status 0x02] := by decide

/-- 46_host.md R155: the failed words. -/
theorem test_status_failed :
    after State.replies (exec .status { base with err := .lengthExceeded }) = some [.status 0x10] ∧
    after State.replies (exec .status { base with err := .allocationFailure, dvalid := true }) =
      some [.status 0x24] := by decide

/-- H11. -/
theorem test_nop : exec .nop (at' .feed 64) = .next (at' .feed 64) := rfl

/-- H12. -/
theorem test_reset :
    after (fun t => (t.phase, t.done, t.dvalid, t.err, t.statusWord))
      (exec .reset { at' .round 17 with dvalid := true }) =
      some (.idle, false, false, .none, 0x00) := rfl

/-! ### Padding and encoding unit (vectors X1 to X5, section 3) -/

/-- X1: the abort, PLEN not written. -/
theorem test_psize_aborts :
    after (fun t => (t.err, t.phase, t.plen, t.done))
      (exec .psize { at' .psize 0 with cfg := ⟨120, 64⟩, len := 56, plen := 192 }) =
      some (.allocationFailure, .idle, 192, false) := by decide

/-- X2. -/
theorem test_psize_fits :
    after (fun t => (t.err, t.phase, t.plen))
      (exec .psize { at' .psize 0 with cfg := ⟨120, 64⟩, len := 55, plen := 192 }) =
      some (.none, .pzero, 64) := by decide

/-- 41_encoder.md R111: cells from PLEN on keep their values. -/
theorem test_pzero :
    after State.pb (exec .pzero { at' .pzero 0 with plen := 64, pb := [(0, 1), (63, 2), (64, 3)] }) =
      some [(64, 3)] := by decide

/-- `hex:61 00 62`: an embedded zero byte is copied like any other. -/
theorem test_pcopy :
    after State.pb (exec .pcopy { at' .pcopy 0 with len := 3, msg := [(0, 0x61), (2, 0x62), (3, 0x63)] }) =
      some [(0, 0x61), (2, 0x62)] := by decide

/-- 41_encoder.md R113: `LEN = 3`, and `LEN = 0` puts 0x80 at `PB[0]`. -/
theorem test_pstop :
    after State.pb (exec .pstop { at' .pstop 0 with len := 3 }) = some [(3, 0x80)] ∧
    after State.pb (exec .pstop (at' .pstop 0)) = some [(0, 0x80)] := by decide

/-- 41_encoder.md R114: `LEN = 3`, `PLEN = 64`. -/
theorem test_plenf :
    after (fun t => (t.pb, t.phase)) (exec .plenf { at' .plenf 0 with len := 3, plen := 64 }) =
      some ([(63, 0x18)], .chunk) := by decide

/-! ### Chunker and Aggregator -/

/-- X4: CHUNK's abort in a state no run reaches. -/
theorem test_chunk_aborts :
    after (fun t => (t.err, t.phase, t.nch, t.ci))
      (exec .chunk { at' .chunk 0 with plen := 100, nch := 2, ci := 1 }) =
      some (.invariantViolation, .idle, 2, 1) := by decide

/-- X5. -/
theorem test_chunk_counts :
    after (fun t => (t.nch, t.ci, t.phase)) (exec .chunk { at' .chunk 0 with plen := 192, ci := 2 }) =
      some (3, 0, .init) := by decide

/-- 45_aggregator.md R140. -/
theorem test_init :
    after (fun t => (t.hs.w0, t.hs.w7, t.t, t.phase)) (exec .init (at' .init 64)) =
      some (0x6a09e667, 0x5be0cd19, 0, .wload) := by decide

/-- 45_aggregator.md R145. -/
theorem test_next_advances :
    after (fun t => (t.ci, t.t, t.phase)) (exec .next { at' .next 64 with ci := 0, nch := 2 }) =
      some (1, 0, .wload) := by decide

theorem test_next_finishes :
    after (fun t => (t.ci, t.t, t.phase)) (exec .next { at' .next 64 with ci := 1, nch := 2 }) =
      some (1, 64, .emit) := by decide

/-- 45_aggregator.md R146. -/
theorem test_emit :
    after (fun t => (t.dg, t.dvalid, t.done, t.phase)) (exec .emit { at' .emit 64 with hs := abcDigest }) =
      some (abcDigest, true, true, .idle) := by decide

/-! ### Message-schedule expander (vectors W1 to W8) -/

/-- W1. -/
theorem test_wload_first :
    after (fun t => (wAt t.w 0, t.t, t.phase))
      (exec .wload { at' .wload 0 with pb := [(0, 0x61), (1, 0x62), (2, 0x63), (3, 0x80)] }) =
      some (0x61626380, 1, .wload) := by decide

/-- W3: chunk 1, word 15. -/
theorem test_wload_last :
    after (fun t => (wAt t.w 15, t.t, t.phase))
      (exec .wload { at' .wload 15 with ci := 1, pb := [(126, 0x01), (127, 0xc0)] }) =
      some (0x000001c0, 16, .wexp) := by decide

/-- W6. -/
theorem test_wexp_17 :
    after (fun t => (wAt t.w 17, t.t, t.phase))
      (exec .wexp { at' .wexp 17 with w := wSet base.w 15 0x18 }) = some (0x000f0000, 18, .wexp) := by
  decide

/-- W7: every source word `ffffffff`. -/
theorem test_wexp_last :
    after (fun t => (wAt t.w 63, t.t, t.phase))
      (exec .wexp { at' .wexp 63 with w := Vector.replicate 64 0xffffffff }) =
      some (0x203ffffc, 64, .rload) := by decide

/-! ### Mixing core and accumulator (vectors C1 to C6) -/

/-- C1. -/
theorem test_rload :
    after (fun t => (t.r, t.t, t.phase)) (exec .rload { at' .rload 64 with hs := iv }) =
      some (iv, 0, .round) := by decide

/-- C4. -/
theorem test_round_abc :
    after (fun t => (t.r, t.t)) (exec .round { at' .round 0 with r := iv, w := wSet base.w 0 0x61626380 }) =
      some (⟨0x5d6aebcd, 0x6a09e667, 0xbb67ae85, 0x3c6ef372, 0xfa2a4622, 0x510e527f, 0x9b05688c, 0x1f83d9ab⟩,
        1) := by decide

/-- C3. -/
theorem test_round_last :
    after (fun t => (t.r.w0, t.r.w1, t.r.w4, t.r.w7, t.t, t.phase))
      (exec .round { at' .round 63 with
        r := Words8.all 0xffffffff, w := Vector.replicate 64 0xffffffff }) =
      some (0xc67178ec, 0xffffffff, 0xc67178ed, 0xffffffff, 64, .feed) := by decide

/-- C5. -/
theorem test_feed_abc :
    after (fun t => (t.hs, t.phase)) (exec .feed { at' .feed 64 with
      hs := iv
      r := ⟨0x506e3058, 0xd39a2165, 0x04d24d6c, 0xb85e2ce9, 0x5ef50f24, 0xfb121210, 0x948d25b6, 0x961f4894⟩ }) =
      some (abcDigest, .next) := by decide

/-- C6: eight independent wraps. -/
theorem test_feed_wraps :
    after State.hs (exec .feed { at' .feed 64 with hs := Words8.all 0xffffffff, r := Words8.all 1 }) =
      some (Words8.all 0) := by decide

/-! ### The step -/

/-- A held SUBMIT stays presented and the engine moves (46_host.md R152). -/
theorem test_step_held_submit :
    after (fun t => (t.inputs, t.t)) (step { at' .round 17 with inputs := [.command 0b01 (some (3, abc))] }) =
      some ([.command 0b01 (some (3, abc))], 18) := by decide

/-- RESET is honoured in every phase (70_reset_and_hazards.md R180). -/
theorem test_step_reset_while_busy :
    after (fun t => (t.phase, t.inputs)) (step { at' .round 17 with inputs := [.resetLine, .engineTurn] }) =
      some (.idle, [.engineTurn]) := rfl

theorem test_step_stuck : faultOf (step (at' .reserved 0)) = some .reservedPhase := by decide

theorem test_step_malformed :
    refusalOf (step { base with inputs := [.command 0b01 none] }) = some (.malformedInput .operandsMissing) := by
  decide

/-! ### Witnesses: every statement's hypotheses are met, at the ends of their ranges -/

/-- The instance in which one block is the whole of PB. -/
def small : State := State.resetWith ⟨64, 64⟩

/-- An engine computing the digest of "abc": RLOAD is next. -/
def computing : State :=
  { at' .rload 64 with len := 3, plen := 64, nch := 1, msg := [(0, 0x61), (1, 0x62), (2, 0x63)] }

/-- `s` with the RESULT command presented. -/
def asking (s : State) : State := { s with inputs := [.command 0b10 none] }

theorem witness_DecodeOfEncodeIsIdentity :
    (Instr.submit 0 []).wf = true ∧ (Instr.submit 3 abc).wf = true ∧ Instr.emit.wf = true := by decide

theorem witness_EncodeOfDecodeIsIdentity :
    decode (.cmd 0b01 (some (0, []))) = .ok (.submit 0 []) ∧ decode (.uop 0xE) = .ok .emit ∧
    decode (.sig 1) = .ok .reset := ⟨rfl, rfl, rfl⟩

theorem witness_StepRunsDecodedOperation :
    decode base.fetch.1 = .ok .nop ∧ decode (at' .round 63).fetch.1 = .ok .round := ⟨rfl, rfl⟩

theorem witness_PhaseSelectsTheMicroOperation :
    (at' .emit 64).inputs = [] ∧ (at' .emit 64).phase ≠ .idle ∧
    decode (.uop (at' .emit 64).phase.code) = .ok .emit ∧ base.inputs = [] ∧ base.phase = .idle := by
  refine ⟨rfl, by decide, rfl, rfl, rfl⟩

theorem witness_ScheduleSaysWhoMoves :
    ({ at' .emit 64 with inputs := [.engineTurn] } : State).phase ≠ .idle ∧
    decode (.uop (at' .emit 64).phase.code) = .ok .emit ∧ base.phase = .idle ∧
    decode (.cmd 0b01 (some (3, abc))) = .ok (.submit 3 abc) ∧
    decode (.cmd 0b11 none) = .ok .status ∧ decode (.cmd 0b01 none) = .error .operandsMissing ∧
    decode (.cmd 0b11 (some (0, []))) = .error .operandsUnexpected := by
  refine ⟨by decide, rfl, rfl, rfl, rfl, rfl, rfl⟩

theorem witness_SubmitIsHeldWhileBusy :
    (at' .round 63).phase ≠ .idle ∧
    completes (step { at' .round 63 with inputs := [] }) = true ∧
    completes (step { at' .psize 0 with inputs := [] }) = true := by decide

theorem witness_ReservedPhaseIsStuck :
    (at' .reserved 0).phase = .reserved ∧ (at' .reserved 0).inputs = [] := ⟨rfl, rfl⟩

theorem witness_SubmitChecksLengthAndStages :
    base.phase = .idle ∧ (List.replicate 120 (0x61 : Byte)).length = 120 ∧ 120 ≤ base.cfg.msgCap ∧
    (List.replicate 121 (0x61 : Byte)).length = 121 ∧ base.cfg.msgCap < 121 ∧
    ([] : List Byte).length = 0 ∧ 0 ≤ base.cfg.msgCap := by decide

theorem witness_ResultReturnsDigestBigEndian :
    ({ base with dvalid := true } : State).dvalid = true ∧
    ({ at' .round 17 with dvalid := true } : State).dvalid = true := ⟨rfl, rfl⟩

theorem witness_ResultBeforeAnyDigestReturnsADraw :
    base.dvalid = false ∧ (at' .round 17).dvalid = false := ⟨rfl, rfl⟩

theorem witness_StatusReturnsTheStatusWord :
    ReportInv base ∧ ReportInv { base with done := true, dvalid := true } ∧
    ReportInv { base with err := .allocationFailure, dvalid := true } ∧
    ReportInv { at' .wexp 16 with dvalid := true } := by
  refine ⟨⟨?_, ?_, ?_⟩, ⟨?_, ?_, ?_⟩, ⟨?_, ?_, ?_⟩, ⟨?_, ?_, ?_⟩⟩ <;> decide

theorem witness_ResetIdlesAndClearsTheReport :
    base.cfg.legal = true ∧ (Params.mk 0 64).legal = true ∧ (Params.mk (2 ^ 61 - 1) 64).legal = true := by
  decide

theorem witness_PsizeComputesLeastPaddedLength :
    ({ small with len := 56 } : State).cfg.pbCap < 128 ∧ 64 * ((56 + 8) / 64 + 1) = 128 ∧
    64 ≤ ({ small with len := 55 } : State).cfg.pbCap ∧ 64 * ((55 + 8) / 64 + 1) = 64 := by decide

theorem witness_FullBufferNeverAborts :
    base.cfg.pbCap = 64 * ((base.cfg.msgCap + 8) / 64 + 1) ∧
    ({ base with len := 120 } : State).len ≤ base.cfg.msgCap ∧ base.len ≤ base.cfg.msgCap := by decide

theorem witness_AbortWritesErrAndPhaseOnly :
    small.cfg.pbCap < 64 * ((({ small with len := 56 } : State).len + 8) / 64 + 1) ∧
    ({ base with plen := 65 } : State).plen % 64 ≠ 0 ∧
    ({ base with plen := 63 } : State).plen % 64 ≠ 0 := by decide

theorem witness_PzeroZeroFillsTheBlock :
    ({ base with plen := 192 } : State).plen ≤ base.cfg.pbCap ∧
    ({ base with plen := 0 } : State).plen ≤ base.cfg.pbCap := by decide

theorem witness_PcopyCopiesTheMessage :
    ({ small with len := 64 } : State).len ≤ small.cfg.msgCap ∧
    ({ small with len := 64 } : State).len ≤ small.cfg.pbCap ∧ small.len ≤ small.cfg.msgCap := by decide

theorem witness_PstopSetsTheStopBit :
    ({ base with len := 191 } : State).len < base.cfg.pbCap ∧ base.len < base.cfg.pbCap := by decide

theorem witness_PlenfWritesTheBitLength :
    8 * ({ base with len := 2 ^ 61 - 1 } : State).len < 2 ^ 64 ∧
    8 ≤ ({ base with plen := 8 } : State).plen ∧ ({ base with plen := 192 } : State).plen ≤ base.cfg.pbCap := by
  decide

theorem witness_EncoderProducesThePaddedBlock :
    (at' .psize 0).phase = .psize ∧ (at' .psize 0).inputs = [] ∧ base.cfg.legal = true ∧
    ({ at' .psize 0 with len := 120 } : State).len ≤ base.cfg.msgCap ∧
    192 = 64 * ((120 + 8) / 64 + 1) ∧ 192 ≤ base.cfg.pbCap := by decide

theorem witness_ChunkCountsTheChunks :
    ({ base with plen := 192 } : State).plen = 64 * 3 ∧
    ∀ n, ({ base with plen := 65 } : State).plen ≠ 64 * n := by
  refine ⟨rfl, fun n => ?_⟩
  show 65 ≠ 64 * n
  omega

theorem witness_NextAdvancesOrFinishes :
    ({ base with ci := 0, nch := 2 } : State).ci + 1 < 2 ∧ 2 ≤ ({ base with ci := 1, nch := 2 } : State).ci + 1 := by
  decide

/-- One state for each row of the transition graph, each with a next state. -/
theorem witness_TransitionGraph_encoder :
    completes (step (at' .psize 0)) = true ∧
    completes (step { small with phase := .psize, len := 56 }) = true ∧
    completes (step (at' .pzero 0)) = true ∧ completes (step (at' .pcopy 0)) = true ∧
    completes (step (at' .pstop 0)) = true ∧ completes (step (at' .plenf 0)) = true ∧
    completes (step (at' .chunk 0)) = true ∧
    completes (step { at' .chunk 0 with plen := 65 }) = true := by decide

theorem witness_TransitionGraph_loops :
    completes (step base) = true ∧ completes (step (at' .init 0)) = true ∧
    completes (step (at' .wload 14)) = true ∧ completes (step (at' .wload 15)) = true ∧
    completes (step (at' .wexp 62)) = true ∧ completes (step (at' .wexp 63)) = true ∧
    completes (step (at' .rload 64)) = true ∧ completes (step (at' .round 62)) = true ∧
    completes (step (at' .round 63)) = true ∧ completes (step (at' .feed 64)) = true ∧
    completes (step { at' .next 64 with nch := 2 }) = true ∧
    completes (step { at' .next 64 with nch := 1 }) = true ∧
    completes (step (at' .emit 64)) = true := by decide

theorem witness_TransitionGraph_commands :
    completes (exec (.submit 120 (List.replicate 120 0)) base) = true ∧
    completes (exec (.submit 121 (List.replicate 121 0)) base) = true ∧
    completes (exec .nop base) = true ∧ completes (exec .result base) = true ∧
    completes (exec .status base) = true ∧ completes (exec .reset base) = true := by
  refine ⟨by decide, by decide, rfl, rfl, rfl, rfl⟩

theorem witness_WloadPacksAChunkWord :
    (at' .wload 15).t.val ≤ 15 ∧ 64 * ({ at' .wload 15 with ci := 2 } : State).ci + 4 * 15 + 4 ≤ base.cfg.pbCap ∧
    64 * base.ci + 4 * base.t.val + 4 ≤ base.cfg.pbCap := by decide

theorem witness_WexpDerivesAScheduleWord :
    (16 ≤ (at' .wexp 16).t.val ∧ (at' .wexp 16).t.val ≤ 63) ∧
    16 ≤ (at' .wexp 63).t.val ∧ (at' .wexp 63).t.val ≤ 63 := by
  decide

theorem witness_ExpanderProducesTheSchedule :
    (at' .wload 0).phase = .wload ∧ (at' .wload 0).t = 0 ∧ (at' .wload 0).inputs = [] ∧
    64 * ({ at' .wload 0 with ci := 2 } : State).ci + 64 ≤ base.cfg.pbCap := by decide

theorem witness_RoundMixesTheRegisters : (at' .round 0).t.val ≤ 63 ∧ (at' .round 63).t.val ≤ 63 := by decide

theorem witness_CompressionFoldsTheSchedule :
    computing.phase = .rload ∧ computing.inputs = [] := ⟨rfl, rfl⟩

theorem witness_SubmitComputesSha256 :
    base.phase = .idle ∧ base.cfg.legal = true ∧ abc.length ≤ base.cfg.msgCap ∧
    64 * ((abc.length + 8) / 64 + 1) ≤ base.cfg.pbCap ∧
    1 + (8 + 131 * ((abc.length + 8) / 64 + 1)) = 140 := by decide

theorem witness_SubmitComputesSha256_longest :
    (List.replicate 120 (0 : Byte)).length ≤ base.cfg.msgCap ∧
    64 * (((List.replicate 120 (0 : Byte)).length + 8) / 64 + 1) ≤ base.cfg.pbCap := by
  rw [List.length_replicate]
  decide

theorem witness_OversizedRequestKeepsTheDigest :
    small.phase = .idle ∧ (List.replicate 56 (0 : Byte)).length ≤ small.cfg.msgCap ∧
    small.cfg.pbCap < 64 * (((List.replicate 56 (0 : Byte)).length + 8) / 64 + 1) := by decide

theorem witness_inv_base : Inv base where
  sequencer := by constructor <;> first | decide | (unfold indexInPhase; decide)
  memory := by constructor <;> decide
  report := by constructor <;> decide
  no_violation := by decide

theorem witness_inv_computing : Inv computing where
  sequencer := by constructor <;> first | decide | (unfold indexInPhase; decide)
  memory := by constructor <;> decide
  report := by constructor <;> decide
  no_violation := by decide

/-- The invariants' premises: a state with the invariant and a step to a next state. -/
theorem witness_InvariantsAreKept :
    Inv computing ∧ completes (step computing) = true ∧ Inv base ∧ completes (step base) = true :=
  ⟨witness_inv_computing, by decide, witness_inv_base, by decide⟩

theorem witness_ResetStateHasTheInvariant :
    (Params.mk 0 64).legal = true ∧ (Params.mk (2 ^ 61 - 1) (64 * (2 ^ 55 + 1))).legal = true := by decide

theorem witness_NoStepFaultsUnderTheInvariant :
    Inv computing ∧ computing.inputWellFormed = true ∧ (asking base).inputWellFormed = true :=
  ⟨witness_inv_computing, by decide, rfl⟩

/-- A write by each of the named writers, so that no clause is empty. -/
theorem witness_OnlyTheNamedWritersWrite :
    after (fun t => (decide (t.msg ≠ base.msg), decide (t.len ≠ base.len))) (exec (.submit 3 abc) base) =
      some (true, true) ∧
    after (fun t => decide (t.pb ≠ base.pb)) (exec .pstop base) = some true ∧
    after (fun t => decide (t.plen ≠ 64)) (exec .psize { base with len := 56 }) = some true ∧
    after (fun t => decide (t.nch ≠ base.nch)) (exec .chunk base) = some true ∧
    after (fun t => decide (t.ci ≠ base.ci)) (exec .next { base with nch := 2 }) = some true ∧
    after (fun t => decide (t.phase ≠ base.phase)) (exec .psize base) = some true ∧
    after (fun t => decide (t.t ≠ 64)) (exec .rload (at' .rload 64)) = some true ∧
    after (fun t => decide (wAt t.w 0 ≠ wAt base.w 0)) (exec .wload { base with pb := [(0, 1)] }) = some true ∧
    after (fun t => decide (t.r ≠ base.r)) (exec .round base) = some true ∧
    after (fun t => decide (t.hs ≠ base.hs)) (exec .init base) = some true ∧
    after (fun t => decide (t.dg ≠ base.dg)) (exec .emit { base with hs := iv }) = some true ∧
    after (fun t => (t.done, t.dvalid)) (exec .emit base) = some (true, true) ∧
    after (fun t => decide (t.err ≠ base.err)) (exec .chunk { base with plen := 65 }) = some true ∧
    after (fun t => decide (t.replies ≠ base.replies)) (exec .status base) = some true := by decide

/-- The clauses in which a flag falls. -/
theorem witness_OnlyTheNamedWritersWrite_falls :
    after State.done (exec (.submit 3 abc) { base with done := true }) = some false ∧
    after State.dvalid (exec .reset { base with dvalid := true }) = some false := ⟨by decide, rfl⟩

theorem witness_RepliesAlreadyReturnedStay :
    after (fun t => t.replies.length) (step (asking base)) = some 1 ∧
    after (fun t => t.replies.length) (step base) = some 0 := ⟨rfl, by decide⟩

theorem witness_ControlIsIndependentOfData :
    computing.control = ({ computing with msg := [(0, 1)], hs := iv, r := iv } : State).control ∧
    computing.inputs.head? ≠ some .resetLine ∧ completes (step computing) = true := by decide

theorem witness_CanonicalMemoriesAreEqual :
    Memory.wf [(0, 0x61), (7, 0xff)] = true ∧ Memory.wf [] = true := by decide

/-- Each clause one past the end of its range. -/
theorem witness_OutOfRangeOperandsStop :
    base.cfg.pbCap < ({ base with plen := 193 } : State).plen ∧
    base.cfg.msgCap < ({ base with len := 121 } : State).len ∧
    ({ State.resetWith ⟨120, 64⟩ with len := 65 } : State).len ≤ (State.resetWith ⟨120, 64⟩).cfg.msgCap ∧
    (State.resetWith ⟨120, 64⟩).cfg.pbCap < ({ State.resetWith ⟨120, 64⟩ with len := 65 } : State).len ∧
    base.cfg.pbCap ≤ ({ base with len := 192 } : State).len ∧
    2 ^ 64 ≤ 8 * ({ base with len := 2 ^ 61 } : State).len ∧
    ({ base with plen := 7 } : State).plen < 8 ∧ 15 < (at' .wload 16).t.val ∧
    base.cfg.pbCap < 64 * ({ at' .wload 0 with ci := 3 } : State).ci + 4 * 0 + 4 ∧
    (at' .wexp 15).t.val < 16 ∧ 63 < (at' .wexp 64).t.val ∧ 63 < (at' .round 64).t.val := by decide

theorem witness_RotationMovesBits : 1 ≤ 1 ∧ 1 ≤ 31 ∧ 31 ≤ 31 ∧ 0 < 32 ∧ 31 < 32 := by decide

end Sys2Proof.Tests
end

section
/-!
PROOFS. The family of 30_encoding.md: the decoder row by row.
-/
namespace Sys2Proof.Proofs
open Sys2Proof.Machine

/-! ### Which row each command code selects (R72) -/

@[simp] theorem decode_cmd_cmdNop (operands : Option (Nat × List Byte)) :
    decode (.cmd cmdNop operands) = decodePlain .nop operands := rfl

@[simp] theorem decode_cmd_cmdSubmit (operands : Option (Nat × List Byte)) :
    decode (.cmd cmdSubmit operands) = decodeSubmit operands := rfl

@[simp] theorem decode_cmd_cmdResult (operands : Option (Nat × List Byte)) :
    decode (.cmd cmdResult operands) = decodePlain .result operands := rfl

@[simp] theorem decode_cmd_cmdStatus (operands : Option (Nat × List Byte)) :
    decode (.cmd cmdStatus operands) = decodePlain .status operands := rfl

/-! ### Which operands a row admits (R71, R73) -/

@[simp] theorem decodePlain_none (i : Instr) : decodePlain i none = .ok i := rfl

theorem decodeSubmit_of_length {L : Nat} {payload : List Byte} (h : payload.length = L) :
    decodeSubmit (some (L, payload)) = .ok (.submit L payload) := if_pos h

/-! ### The two printed tables (R72, R75) -/

/-- Settles O3: the command codes row by row, and each PHASE code as the code of the phase it names
(`decode_uop_code`), in the order of the table of R75. -/
theorem specCodesDecode : Obligations.SpecCodesDecode :=
  ⟨⟨(decode_cmd_cmdNop none).trans (decodePlain_none .nop),
      (decode_cmd_cmdSubmit _).trans (decodeSubmit_of_length rfl),
      (decode_cmd_cmdResult none).trans (decodePlain_none .result),
      (decode_cmd_cmdStatus none).trans (decodePlain_none .status)⟩,
    decode_uop_code .idle, decode_uop_code .psize, decode_uop_code .pzero, decode_uop_code .pcopy,
    decode_uop_code .pstop, decode_uop_code .plenf, decode_uop_code .chunk, decode_uop_code .init,
    decode_uop_code .wload, decode_uop_code .wexp, decode_uop_code .rload, decode_uop_code .round,
    decode_uop_code .feed, decode_uop_code .next, decode_uop_code .emit, decode_uop_code .reserved⟩

end Sys2Proof.Proofs
end

section
/-!
PROOFS. The family of 40_arith.md: the word operations as numbers and bit by bit.
-/
namespace Sys2Proof.Proofs
open Sys2Proof.Machine

/-! ### Words as numbers (R90, R92) -/

@[simp] theorem add32_toNat (x y : Word) : (add32 x y).toNat = (x.toNat + y.toNat) % 2 ^ 32 :=
  BitVec.toNat_add x y

@[simp] theorem shr_toNat (x : Word) (n : Nat) : (shr x n).toNat = x.toNat / 2 ^ n :=
  (BitVec.toNat_ushiftRight x n).trans (Nat.shiftRight_eq_div_pow x.toNat n)

/-- Settles O50: `add32` is the addition of 32-bit words. -/
theorem additionWraps : Obligations.AdditionWraps := add32_toNat

/-- Settles O52: a logical shift right divides by the power of two. -/
theorem shiftDividesByAPowerOfTwo : Obligations.ShiftDividesByAPowerOfTwo := shr_toNat

/-! ### Rotations and shifts bit by bit (R91, R92) -/

@[simp] theorem shr_getLsbD (x : Word) (n i : Nat) : (shr x n).getLsbD i = x.getLsbD (i + n) := by
  rw [shr, BitVec.getLsbD_ushiftRight, Nat.add_comm]

/-- A bit of a rotation comes from the right shift while `i + n` stays below 32, and from the left shift
once it wraps: the other shift has 0 there. -/
@[simp] theorem rotr_getLsbD (x : Word) {n i : Nat} (hn : n < 32) (hi : i < 32) :
    (rotr x n).getLsbD i = x.getLsbD ((i + n) % 32) := by
  rw [rotr, BitVec.getLsbD_or, BitVec.getLsbD_ushiftRight, BitVec.getLsbD_shiftLeft]
  by_cases hwrap : i + n < 32
  · have hmod : (i + n) % 32 = n + i := by omega
    have hleft : i < 32 - n := by omega
    simp [hmod, hleft]
  · have hmod : (i + n) % 32 = i - (32 - n) := by omega
    have hright : x.getLsbD (n + i) = false := BitVec.getLsbD_of_ge x (n + i) (by omega)
    have hleft : ¬ i < 32 - n := by omega
    simp [hmod, hright, hleft, hi]

/-- Settles O51: the formula is the definition of `rotr`, and its bits are those of `rotr_getLsbD`. -/
theorem rotationMovesBits : Obligations.RotationMovesBits :=
  fun x _ _ _ hn hi => ⟨rfl, rotr_getLsbD x (Nat.lt_succ_of_le hn) hi⟩

/-! ### The sigma functions (R95 to R98) -/

section
variable (x : Word) {i : Nat} (hi : i < 32)
include hi

/-- The shape of `sigma0` and `sigma1`: two rotations and a shift. -/
theorem rotr_xor_rotr_xor_shr_getLsbD {a b : Nat} (ha : a < 32) (hb : b < 32) (c : Nat) :
    (rotr x a ^^^ rotr x b ^^^ shr x c).getLsbD i =
      ((x.getLsbD ((i + a) % 32) ^^ x.getLsbD ((i + b) % 32)) ^^ x.getLsbD (i + c)) := by
  simp only [BitVec.getLsbD_xor, rotr_getLsbD x ha hi, rotr_getLsbD x hb hi, shr_getLsbD]

/-- The shape of `Sigma0` and `Sigma1`: three rotations. -/
theorem rotr_xor_rotr_xor_rotr_getLsbD {a b c : Nat} (ha : a < 32) (hb : b < 32) (hc : c < 32) :
    (rotr x a ^^^ rotr x b ^^^ rotr x c).getLsbD i =
      ((x.getLsbD ((i + a) % 32) ^^ x.getLsbD ((i + b) % 32)) ^^ x.getLsbD ((i + c) % 32)) := by
  simp only [BitVec.getLsbD_xor, rotr_getLsbD x ha hi, rotr_getLsbD x hb hi, rotr_getLsbD x hc hi]

end

/-- Settles O53: each function is one of the two shapes at its own amounts. -/
theorem sigmaFunctionsBitwise : Obligations.SigmaFunctionsBitwise := fun x _ hi =>
  ⟨rotr_xor_rotr_xor_shr_getLsbD x hi (a := 7) (b := 18) (by decide) (by decide) 3,
    rotr_xor_rotr_xor_shr_getLsbD x hi (a := 17) (b := 19) (by decide) (by decide) 10,
    rotr_xor_rotr_xor_rotr_getLsbD x hi (a := 2) (b := 13) (c := 22) (by decide) (by decide) (by decide),
    rotr_xor_rotr_xor_rotr_getLsbD x hi (a := 6) (b := 11) (c := 25) (by decide) (by decide) (by decide)⟩

/-! ### Choose and majority (R99, R100) -/

@[simp] theorem ch_getLsbD (e f g : Word) {i : Nat} (hi : i < 32) :
    (ch e f g).getLsbD i = if e.getLsbD i then f.getLsbD i else g.getLsbD i := by
  rw [ch, BitVec.getLsbD_xor, BitVec.getLsbD_and, BitVec.getLsbD_and, BitVec.getLsbD_not]
  cases e.getLsbD i with
  | false => simp [hi]
  | true => simp

/-- The exclusive or of the three pairwise conjunctions is the majority of three bits. -/
theorem xor_of_pairs_eq_majority : ∀ a b c : Bool,
    (((a && b) ^^ (a && c)) ^^ (b && c)) = decide (2 ≤ a.toNat + b.toNat + c.toNat) := by decide

@[simp] theorem maj_getLsbD (a b c : Word) (i : Nat) : (maj a b c).getLsbD i =
    decide (2 ≤ (a.getLsbD i).toNat + (b.getLsbD i).toNat + (c.getLsbD i).toNat) := by
  simp only [maj, BitVec.getLsbD_xor, BitVec.getLsbD_and, xor_of_pairs_eq_majority]

/-- Settles O54: `ch_getLsbD` and `maj_getLsbD`. -/
theorem chooseAndMajorityBitwise : Obligations.ChooseAndMajorityBitwise :=
  fun x y z i hi => ⟨ch_getLsbD x y z hi, maj_getLsbD x y z i⟩

end Sys2Proof.Proofs
end

section
/-!
PROOFS. The family of 41_encoder.md: the padding and encoding unit, one micro-operation at a time.
-/
namespace Sys2Proof.Proofs
open Sys2Proof.Machine

/-! ### The padded length (R110) -/

/-- In bits, the padded length is the least multiple of 512 that holds the message, the stop bit and the
64-bit length. -/
theorem paddedLen_isLeast (L : Nat) :
    IsLeast {Q : Nat | Q % 512 = 0 ∧ 8 * L + 1 + 64 ≤ Q} (8 * paddedLen L) := by
  rw [paddedLen_eq]
  constructor
  · constructor <;> omega
  · rintro Q ⟨hmul, hge⟩
    omega

theorem exec_psize_of_gt {s : State} (h : s.cfg.pbCap < paddedLen s.len) :
    exec .psize s = .next (s.abort .allocationFailure) :=
  execPsize_eq_next.mpr (.inl ⟨h, rfl⟩)

theorem exec_psize_of_le {s : State} (h : paddedLen s.len ≤ s.cfg.pbCap) :
    exec .psize s = .next (({ s with plen := paddedLen s.len } : State).goto .pzero) :=
  execPsize_eq_next.mpr (.inr ⟨h, rfl⟩)

/-- Settles O17: `P` is `paddedLen LEN`. -/
theorem psizeComputesLeastPaddedLength : Obligations.PsizeComputesLeastPaddedLength := by
  intro s
  obtain ⟨⟨hmul, hge⟩, hleast⟩ := paddedLen_isLeast s.len
  exact ⟨paddedLen s.len, hmul, hge, fun Q hQ hle => hleast ⟨hQ, hle⟩, paddedLen_eq s.len,
    exec_psize_of_gt, exec_psize_of_le⟩

/-! ### The operations that write PB (R111 to R114)

Each answers a state of the one form `{ s with pb := m }.goto p`, whose frame holds by unfolding. -/

theorem exec_pzero {s : State} (h : s.plen ≤ s.cfg.pbCap) : exec .pzero s =
    .next (({ s with pb := s.pb.writeBytes 0 (List.replicate s.plen 0) } : State).goto .pcopy) :=
  execPzero_eq_next.mpr ⟨(Nat.zero_add _).trans_le h, rfl⟩

theorem exec_pcopy {s : State} (hmsg : s.len ≤ s.cfg.msgCap) (hpb : s.len ≤ s.cfg.pbCap) :
    exec .pcopy s = .next (({ s with pb := s.pb.writeBytes 0 s.message } : State).goto .pstop) :=
  execPcopy_eq_next.mpr ⟨(Nat.zero_add _).trans_le hmsg, (Nat.zero_add _).trans_le hpb, rfl⟩

theorem exec_pstop {s : State} (h : s.len < s.cfg.pbCap) : exec .pstop s =
    .next (({ s with pb := s.pb.write s.len (s.stopByte ||| 0x80) } : State).goto .plenf) :=
  execPstop_eq_next.mpr ⟨h, rfl⟩

theorem exec_plenf {s : State} (hlen : 8 * s.len < 2 ^ 64) (hge : 8 ≤ s.plen)
    (hle : s.plen ≤ s.cfg.pbCap) : exec .plenf s =
    .next (({ s with pb := s.pb.writeBytes s.lengthFieldAddr s.lengthField } : State).goto .chunk) :=
  execPlenf_eq_next.mpr ⟨hlen, hge, (Nat.sub_add_cancel hge).trans_le hle, rfl⟩

/-! ### What PB holds after them -/

@[simp] theorem read_writeBytes_zeros (m : Memory) (n a : Nat) :
    (m.writeBytes 0 (List.replicate n 0)).read a = if a < n then 0x00 else m.read a := by
  rw [Memory.read_writeBytes]
  by_cases h : a < n <;> simp [h]

@[simp] theorem read_writeBytes_message (m : Memory) (s : State) (a : Nat) :
    (m.writeBytes 0 s.message).read a = if a < s.len then s.msg.read a else m.read a := by
  rw [Memory.read_writeBytes]
  by_cases h : a < s.len
  · rw [if_pos (by simp [State.message, h]), if_pos h, State.message, Nat.sub_zero,
      Memory.readBytes_getD s.msg 0 s.len a h, Nat.zero_add]
  · simp [State.message, h]

theorem read_writeBytes_lengthField (m : Memory) (s : State) (b : Nat) {j : Nat} (hj : j < 8) :
    ((m.writeBytes b s.lengthField).read (b + j)).toNat = 8 * s.len / 256 ^ (7 - j) % 256 := by
  rw [Memory.read_writeBytes, if_pos (by simp [State.lengthField, hj]), Nat.add_sub_cancel_left,
    State.lengthField, beBytes_getD 8 _ j hj, BitVec.toNat_ofNat]

theorem read_writeBytes_lengthField_outside (m : Memory) (s : State) {b a : Nat}
    (ha : a < b ∨ b + 8 ≤ a) : (m.writeBytes b s.lengthField).read a = m.read a := by
  rw [Memory.read_writeBytes, if_neg]
  rw [State.lengthField, beBytes_length]
  omega

/-- Settles O20: a run of PLEN zero bytes is written from cell 0. -/
theorem pzeroZeroFillsTheBlock : Obligations.PzeroZeroFillsTheBlock := fun s h =>
  ⟨_, exec_pzero h, read_writeBytes_zeros s.pb s.plen, rfl, rfl⟩

/-- Settles O21: the LEN bytes read from MSG are written from cell 0. -/
theorem pcopyCopiesTheMessage : Obligations.PcopyCopiesTheMessage := fun s hmsg hpb =>
  ⟨_, exec_pcopy hmsg hpb, read_writeBytes_message s.pb s, rfl, rfl⟩

/-- Settles O22: one byte is written, and `stopByte` is the byte read there. -/
theorem pstopSetsTheStopBit : Obligations.PstopSetsTheStopBit := fun s h =>
  ⟨_, exec_pstop h, Memory.read_write s.pb s.len (s.stopByte ||| 0x80), rfl, rfl⟩

/-- Settles O23: the length field occupies exactly the eight cells below PLEN. -/
theorem plenfWritesTheBitLength : Obligations.PlenfWritesTheBitLength := by
  intro s hlen hge hle
  refine ⟨_, exec_plenf hlen hge hle, fun j hj => ?inside, fun a ha => ?outside, rfl, rfl⟩
  case inside => exact read_writeBytes_lengthField s.pb s s.lengthFieldAddr hj
  case outside =>
    refine read_writeBytes_lengthField_outside s.pb s ?_
    rwa [State.lengthFieldAddr, Nat.sub_add_cancel hge]

end Sys2Proof.Proofs
end

section
/-!
PROOFS. The family of 42_chunker.md: the chunk count, or the abort.
-/
namespace Sys2Proof.Proofs
open Sys2Proof.Machine

/-! ### The two branches of CHUNK (R120) -/

theorem exec_chunk_of_dvd {s : State} (h : 64 ∣ s.plen) :
    exec .chunk s = .next (({ s with nch := s.plen / 64, ci := 0 } : State).goto .init) :=
  execChunk_eq_next.mpr (.inl ⟨Nat.mod_eq_zero_of_dvd h, rfl⟩)

theorem exec_chunk_of_not_dvd {s : State} (h : ¬ 64 ∣ s.plen) :
    exec .chunk s = .next (s.abort .invariantViolation) :=
  execChunk_eq_next.mpr (.inr ⟨mt Nat.dvd_of_mod_eq_zero h, rfl⟩)

/-- Settles O25: when PLEN is `64 * n` the quotient that CHUNK stores is `n`; when PLEN is no such
product, 64 does not divide it. -/
theorem chunkCountsTheChunks : Obligations.ChunkCountsTheChunks := by
  refine fun s => ⟨fun n hplen => ?count, fun hne => ?abort⟩
  case count =>
    have hcount : s.plen / 64 = n := Nat.div_eq_of_eq_mul_right (by decide) hplen
    rw [exec_chunk_of_dvd ⟨n, hplen⟩, hcount, State.goto]
  case abort =>
    have hndvd : ¬ 64 ∣ s.plen := fun ⟨n, hplen⟩ => hne n hplen
    rw [exec_chunk_of_not_dvd hndvd, State.abort]

end Sys2Proof.Proofs
end

section
/-!
PROOFS. The family of 43_schedule.md: the message-schedule expander, one word at a time.
-/
namespace Sys2Proof.Proofs
open Sys2Proof.Machine

/-! ### What the two micro-operations answer (R125, R126)

Both answer a state of the one form `({ s with w := wSet s.w T x, t := T + 1 }).goto p`, whose frame holds
by unfolding. -/

theorem exec_wload {s : State} (ht : s.t.val ≤ 15)
    (hpb : 64 * s.ci + 4 * s.t.val + 4 ≤ s.cfg.pbCap) : exec .wload s =
    .next (({ s with w := wSet s.w s.t.val s.chunkWord, t := indexUp s.t } : State).goto
      (if s.t.val = 15 then .wexp else .wload)) :=
  execWload_eq_next.mpr ⟨ht, hpb, rfl⟩

theorem exec_wexp {s : State} (hge : 16 ≤ s.t.val) (hle : s.t.val ≤ 63) : exec .wexp s =
    .next (({ s with
      w := wSet s.w s.t.val (expandWord (s.wBack 16) (s.wBack 15) (s.wBack 7) (s.wBack 2))
      t := indexUp s.t } : State).goto (if s.t.val = 63 then .rload else .wexp)) :=
  execWexp_eq_next.mpr ⟨⟨hge, hle⟩, rfl⟩

/-! ### What W holds after them (R128) -/

theorem wAt_wSet_same (w : Vector Word 64) {i : Nat} (x : Word) (hi : i < 64) :
    wAt (wSet w i x) i = x :=
  (wAt_wSet w i i x hi).trans (if_pos rfl)

theorem wSet_getElem_of_ne (w : Vector Word 64) (x : Word) {i : Nat} (j : Fin 64) (h : j.val ≠ i) :
    (wSet w i x)[j.val] = w[j.val] :=
  Vector.getElem_setIfInBounds_ne j.isLt h.symm

/-! ### The words they derive, as numbers -/

theorem chunkWord_toNat (s : State) : s.chunkWord.toNat =
    (s.pb.read (64 * s.ci + 4 * s.t.val)).toNat * 2 ^ 24 +
      (s.pb.read (64 * s.ci + 4 * s.t.val + 1)).toNat * 2 ^ 16 +
      (s.pb.read (64 * s.ci + 4 * s.t.val + 2)).toNat * 2 ^ 8 +
      (s.pb.read (64 * s.ci + 4 * s.t.val + 3)).toNat :=
  packWord_toNat _ _ _ _

/-- The three wrapping additions agree with one reduction of the whole sum. -/
theorem expandWord_toNat (w16 w15 w7 w2 : Word) : (expandWord w16 w15 w7 w2).toNat =
    (w16.toNat + (sigma0 w15).toNat + w7.toNat + (sigma1 w2).toNat) % 2 ^ 32 := by
  simp only [expandWord, add32_toNat, Nat.mod_add_mod]

/-- Settles O30: the word written at T is `chunkWord`, the four bytes packed. -/
theorem wloadPacksAChunkWord : Obligations.WloadPacksAChunkWord := by
  intro s ht hpb
  have hlt : s.t.val < 64 := by omega
  refine ⟨_, exec_wload ht hpb, ?word, wSet_getElem_of_ne s.w _, indexUp_val s.t (by omega), rfl, rfl⟩
  case word =>
    exact (congrArg BitVec.toNat (wAt_wSet_same s.w _ hlt)).trans (chunkWord_toNat s)

/-- Settles O31: the word written at T is `expandWord` of the four earlier words. -/
theorem wexpDerivesAScheduleWord : Obligations.WexpDerivesAScheduleWord := by
  intro s hge hle
  have hlt : s.t.val < 64 := by omega
  refine ⟨_, exec_wexp hge hle, ?word, wSet_getElem_of_ne s.w _, indexUp_val s.t hle, rfl, rfl⟩
  case word =>
    exact (congrArg BitVec.toNat (wAt_wSet_same s.w _ hlt)).trans (expandWord_toNat _ _ _ _)

end Sys2Proof.Proofs
end

section
/-!
PROOFS. The family of 44_compress.md: the mixing core and the state accumulator, one micro-operation at a time.
-/
namespace Sys2Proof.Proofs
open Sys2Proof.Machine

/-! ### What the three micro-operations answer (R130 to R132) -/

theorem exec_rload (s : State) :
    exec .rload s = .next (({ s with r := s.hs, t := 0 } : State).goto .round) := rfl

theorem exec_round {s : State} (ht : s.t.val ≤ 63) : exec .round s =
    .next (({ s with r := roundWords s.r s.kT s.wT, t := indexUp s.t } : State).goto
      (if s.t.val = 63 then .feed else .round)) :=
  execRound_eq_next.mpr ⟨ht, rfl⟩

theorem exec_feed (s : State) :
    exec .feed s = .next (({ s with hs := addWords s.hs s.r } : State).goto .next) := rfl

/-! ### The sums of one round (R131) -/

/-- `T1` of a round on the registers `r` with round constant `k` and schedule word `x` (R131). -/
def roundT1 (r : Words8) (k x : Word) : Word :=
  add32 (add32 (add32 (add32 (r.get 7) (bigSigma1 (r.get 4))) (ch (r.get 4) (r.get 5) (r.get 6))) k) x

/-- `T2` of a round on the registers `r` (R131). -/
def roundT2 (r : Words8) : Word := add32 (bigSigma0 (r.get 0)) (maj (r.get 0) (r.get 1) (r.get 2))

/-- A round shifts the registers by one place and brings in `T1` and `T2` at `a` and `e`. -/
theorem roundWords_eq (r : Words8) (k x : Word) : roundWords r k x =
    ⟨add32 (roundT1 r k x) (roundT2 r), r.get 0, r.get 1, r.get 2,
      add32 (r.get 3) (roundT1 r k x), r.get 4, r.get 5, r.get 6⟩ := rfl

/-- The four wrapping additions agree with one reduction of the whole sum. -/
theorem roundT1_toNat (r : Words8) (k x : Word) : (roundT1 r k x).toNat =
    ((r.get 7).toNat + (bigSigma1 (r.get 4)).toNat + (ch (r.get 4) (r.get 5) (r.get 6)).toNat +
      k.toNat + x.toNat) % 2 ^ 32 := by
  simp only [roundT1, add32_toNat, Nat.mod_add_mod]

theorem roundT2_toNat (r : Words8) : (roundT2 r).toNat =
    ((bigSigma0 (r.get 0)).toNat + (maj (r.get 0) (r.get 1) (r.get 2)).toNat) % 2 ^ 32 :=
  add32_toNat _ _

/-! ### The accumulator (R132) -/

/-- Each word of the sum is the sum of the two words at its own place. -/
@[simp] theorem addWords_get (x y : Words8) : ∀ i, (addWords x y).get i = add32 (x.get i) (y.get i)
  | 0 | 1 | 2 | 3 | 4 | 5 | 6 | 7 => rfl

/-- Settles O33: the registers become the hash state itself. -/
theorem rloadCopiesTheHashState : Obligations.RloadCopiesTheHashState := fun s =>
  ⟨_, exec_rload s, fun _ => rfl, rfl, rfl, rfl⟩

/-- Settles O34: `T1` and `T2` are the numbers of `roundT1` and `roundT2`, and the eight registers are
those of `roundWords_eq`. -/
theorem roundMixesTheRegisters : Obligations.RoundMixesTheRegisters := by
  intro s ht
  refine ⟨_, (roundT1 s.r s.kT s.wT).toNat, (roundT2 s.r).toNat, exec_round ht,
    roundT1_toNat s.r s.kT s.wT, roundT2_toNat s.r, ?_⟩
  rw [roundWords_eq]
  exact ⟨rfl, rfl, rfl, add32_toNat _ _, rfl, rfl, rfl, add32_toNat _ _, indexUp_val s.t ht, rfl, rfl⟩

/-- Settles O35: the words of `addWords`, each a sum modulo `2^32`. -/
theorem feedAddsIntoTheHashState : Obligations.FeedAddsIntoTheHashState := fun s =>
  ⟨_, exec_feed s, fun i => (congrArg BitVec.toNat (addWords_get s.hs s.r i)).trans (add32_toNat _ _),
    rfl, rfl⟩

end Sys2Proof.Proofs
end

section
/-!
PROOFS. The family of 45_aggregator.md: INIT, NEXT and EMIT, and the sequencer's transition graph row by row.
-/
namespace Sys2Proof.Proofs
open Sys2Proof.Machine

/-! ### What the three micro-operations answer (R140, R145, R146) -/

theorem exec_init (s : State) :
    exec .init s = .next (({ s with hs := iv, t := 0 } : State).goto .wload) := rfl

theorem exec_next_of_lt {s : State} (h : s.ci + 1 < s.nch) :
    exec .next s = .next (({ s with ci := s.ci + 1, t := 0 } : State).goto .wload) :=
  execNext_eq_next.mpr (.inl ⟨h, rfl⟩)

theorem exec_next_of_le {s : State} (h : s.nch ≤ s.ci + 1) : exec .next s = .next (s.goto .emit) :=
  execNext_eq_next.mpr (.inr ⟨Nat.not_lt.mpr h, rfl⟩)

theorem exec_emit (s : State) :
    exec .emit s = .next (({ s with dg := s.hs } : State).completed.goto .idle) := rfl

/-- Settles O26: the words written are `iv`, the eight of the statement. -/
theorem initLoadsTheIv : Obligations.InitLoadsTheIv := fun s =>
  ⟨_, exec_init s, rfl, rfl, rfl, rfl⟩

/-- Settles O27: the two branches of NEXT. -/
theorem nextAdvancesOrFinishes : Obligations.NextAdvancesOrFinishes := fun _ =>
  ⟨exec_next_of_lt, exec_next_of_le⟩

/-- Settles O28: DG becomes the hash state itself. -/
theorem emitPublishesTheDigest : Obligations.EmitPublishesTheDigest := fun s =>
  ⟨_, exec_emit s, fun _ => rfl, rfl, rfl, rfl, rfl⟩

/-! ### The kinds of row in the transition graph (R143) -/

/-- A row without counters: PHASE becomes `p`, CI and T stay. -/
def MovesTo (p : Phase) (s t : State) : Prop := t.phase = p ∧ t.ci = s.ci ∧ t.t = s.t

/-- The two rows of a loop over T: PHASE becomes `leave` when T was `last` and else `stay`, T counts up
and CI stays. -/
def CountsUp (last : Nat) (stay leave : Phase) (s t : State) : Prop :=
  t.phase = (if s.t.val = last then leave else stay) ∧ t.t.val = s.t.val + 1 ∧ t.ci = s.ci

theorem CountsUp.stays {last : Nat} {stay leave : Phase} {s t : State}
    (h : CountsUp last stay leave s t) (hlt : s.t.val < last) :
    t.phase = stay ∧ t.t.val = s.t.val + 1 ∧ t.ci = s.ci := by
  obtain ⟨hphase, hcount, hci⟩ := h
  exact ⟨hphase.trans (if_neg hlt.ne), hcount, hci⟩

theorem CountsUp.leaves {last : Nat} {stay leave : Phase} {s t : State}
    (h : CountsUp last stay leave s t) (hlast : s.t.val = last) {n : Index} (hn : n.val = last + 1) :
    t.phase = leave ∧ t.t = n ∧ t.ci = s.ci := by
  obtain ⟨hphase, hcount, hci⟩ := h
  exact ⟨hphase.trans (if_pos hlast), Fin.ext (by omega), hci⟩

/-! ### The rows of the engine's operations that can also stop (R111 to R114, R125, R126, R131) -/

section
variable {s t : State}

theorem movesTo_of_exec_pzero (h : exec .pzero s = .next t) : MovesTo .pcopy s t := by
  obtain ⟨-, rfl⟩ := execPzero_eq_next.mp h
  exact ⟨rfl, rfl, rfl⟩

theorem movesTo_of_exec_pcopy (h : exec .pcopy s = .next t) : MovesTo .pstop s t := by
  obtain ⟨-, -, rfl⟩ := execPcopy_eq_next.mp h
  exact ⟨rfl, rfl, rfl⟩

theorem movesTo_of_exec_pstop (h : exec .pstop s = .next t) : MovesTo .plenf s t := by
  obtain ⟨-, rfl⟩ := execPstop_eq_next.mp h
  exact ⟨rfl, rfl, rfl⟩

theorem movesTo_of_exec_plenf (h : exec .plenf s = .next t) : MovesTo .chunk s t := by
  obtain ⟨-, -, -, rfl⟩ := execPlenf_eq_next.mp h
  exact ⟨rfl, rfl, rfl⟩

theorem countsUp_of_exec_wload (h : exec .wload s = .next t) : CountsUp 15 .wload .wexp s t := by
  obtain ⟨hle, -, rfl⟩ := execWload_eq_next.mp h
  exact ⟨rfl, indexUp_val s.t (by omega), rfl⟩

theorem countsUp_of_exec_wexp (h : exec .wexp s = .next t) : CountsUp 63 .wexp .rload s t := by
  obtain ⟨⟨-, hle⟩, rfl⟩ := execWexp_eq_next.mp h
  exact ⟨rfl, indexUp_val s.t hle, rfl⟩

theorem countsUp_of_exec_round (h : exec .round s = .next t) : CountsUp 63 .round .feed s t := by
  obtain ⟨hle, rfl⟩ := execRound_eq_next.mp h
  exact ⟨rfl, indexUp_val s.t hle, rfl⟩

/-! ### The rows of the commands in IDLE and of RESET (R150 to R155, R180) -/

theorem movesTo_of_exec_submit {L : Nat} {payload : List Byte} (hidle : s.phase = .idle)
    (h : exec (.submit L payload) s = .next t) :
    MovesTo (if L ≤ s.cfg.msgCap then .psize else .idle) s t := by
  obtain ⟨hbusy, -⟩ | ⟨-, hlong, rfl⟩ | ⟨-, hfits, rfl⟩ := execSubmit_eq_next.mp h
  · exact absurd hidle (busy_iff.mp hbusy)
  · exact ⟨hidle.trans (if_neg hlong.not_ge).symm, rfl, rfl⟩
  · exact ⟨(if_pos hfits).symm, rfl, rfl⟩

theorem movesTo_of_exec_nop (h : exec .nop s = .next t) : MovesTo s.phase s t := by
  cases h
  exact ⟨rfl, rfl, rfl⟩

theorem movesTo_of_exec_result (h : exec .result s = .next t) : MovesTo s.phase s t := by
  obtain ⟨-, rfl⟩ | ⟨-, rfl⟩ := execResult_eq_next.mp h
  · exact ⟨rfl, rfl, rfl⟩
  · exact ⟨rfl, rfl, rfl⟩

theorem movesTo_of_exec_status (h : exec .status s = .next t) : MovesTo s.phase s t := by
  cases h
  exact ⟨rfl, rfl, rfl⟩

theorem phase_of_exec_reset (h : exec .reset s = .next t) : t.phase = .idle := by
  cases h
  rfl

/-! ### From the operation to the step -/

theorem exec_answer_unique {i : Instr} {u : State} (h : exec i s = .next t) (hu : exec i s = .next u) :
    t = u :=
  Host.Outcome.next.inj (h.symm.trans hu)

/-- A step with no input is the execution of the operation PHASE selects. -/
theorem exec_of_step_engine {p : Phase} {i : Instr} (hin : s.inputs = []) (hstep : step s = .next t)
    (hp : s.phase = p) (hd : decodePhase p = .ok i) : exec i s = .next t := by
  subst hp
  exact (step_engine hin hd).symm.trans hstep

end

/-- Settles O29: each row is the row of the operation its PHASE selects, in the order of the table of R143. -/
theorem transitionGraph : Obligations.TransitionGraph := by
  refine ⟨fun s t hin hstep => ?engine, fun s t hidle => ⟨fun L payload => ?submit, fun i hi h => ?other⟩,
    fun s t => phase_of_exec_reset⟩
  case engine =>
    have run {p : Phase} {i : Instr} (hp : s.phase = p) (hd : decodePhase p = .ok i) :
        exec i s = .next t := exec_of_step_engine hin hstep hp hd
    have hpadded := paddedLen_eq s.len
    refine ⟨fun hp => ?idle, fun hp hfits => ?fits, fun hp hlong => ?long,
      fun hp => movesTo_of_exec_pzero (run hp rfl), fun hp => movesTo_of_exec_pcopy (run hp rfl),
      fun hp => movesTo_of_exec_pstop (run hp rfl), fun hp => movesTo_of_exec_plenf (run hp rfl),
      fun hp hmod => ?whole, fun hp hmod => ?ragged, fun hp => ?init,
      fun hp => (countsUp_of_exec_wload (run hp rfl)).stays,
      fun hp hlast => (countsUp_of_exec_wload (run hp rfl)).leaves hlast rfl,
      fun hp => (countsUp_of_exec_wexp (run hp rfl)).stays,
      fun hp hlast => (countsUp_of_exec_wexp (run hp rfl)).leaves hlast rfl,
      fun hp => ?rload,
      fun hp => (countsUp_of_exec_round (run hp rfl)).stays,
      fun hp hlast => (countsUp_of_exec_round (run hp rfl)).leaves hlast rfl,
      fun hp => ?feed, fun hp hmore => ?more, fun hp hdone => ?finished, fun hp => ?emit⟩
    case idle =>
      cases (step_idle hp hin).symm.trans hstep
      exact hp
    case fits =>
      obtain rfl := exec_answer_unique (run hp rfl) (exec_psize_of_le (hpadded.trans_le hfits))
      exact ⟨rfl, rfl, rfl⟩
    case long =>
      obtain rfl := exec_answer_unique (run hp rfl) (exec_psize_of_gt (hlong.trans_eq hpadded.symm))
      exact ⟨rfl, rfl, rfl, rfl⟩
    case whole =>
      obtain rfl := exec_answer_unique (run hp rfl) (exec_chunk_of_dvd (Nat.dvd_of_mod_eq_zero hmod))
      exact ⟨rfl, rfl, rfl⟩
    case ragged =>
      obtain rfl := exec_answer_unique (run hp rfl) (exec_chunk_of_not_dvd (mt Nat.mod_eq_zero_of_dvd hmod))
      exact ⟨rfl, rfl, rfl, rfl⟩
    case init =>
      obtain rfl := exec_answer_unique (run hp rfl) (exec_init s)
      exact ⟨rfl, rfl, rfl⟩
    case rload =>
      obtain rfl := exec_answer_unique (run hp rfl) (exec_rload s)
      exact ⟨rfl, rfl, rfl⟩
    case feed =>
      obtain rfl := exec_answer_unique (run hp rfl) (exec_feed s)
      exact ⟨rfl, rfl, rfl⟩
    case more =>
      obtain rfl := exec_answer_unique (run hp rfl) (exec_next_of_lt hmore)
      exact ⟨rfl, rfl, rfl⟩
    case finished =>
      obtain rfl := exec_answer_unique (run hp rfl) (exec_next_of_le hdone)
      exact ⟨rfl, rfl, rfl⟩
    case emit =>
      obtain rfl := exec_answer_unique (run hp rfl) (exec_emit s)
      exact ⟨rfl, rfl, rfl, rfl⟩
  case submit => exact movesTo_of_exec_submit hidle
  case other =>
    rw [← hidle]
    simp only [List.mem_cons, List.not_mem_nil, or_false] at hi
    obtain rfl | rfl | rfl := hi
    · exact movesTo_of_exec_nop h
    · exact movesTo_of_exec_result h
    · exact movesTo_of_exec_status h

end Sys2Proof.Proofs
end

section
/-!
PROOFS. The family of 46_host.md: the four host commands.
-/
namespace Sys2Proof.Proofs
open Sys2Proof.Machine

/-! ### What the four commands answer (R150, R151, R153, R155) -/

theorem exec_nop (s : State) : exec .nop s = .next s := rfl

theorem exec_submit_of_gt {s : State} {L : Nat} (payload : List Byte) (hidle : s.phase = .idle)
    (h : s.cfg.msgCap < L) : exec (.submit L payload) s = .next s.lengthExceeded :=
  execSubmit_eq_next.mpr (.inr (.inl ⟨not_busy_iff.mpr hidle, h, rfl⟩))

theorem exec_submit_of_le {s : State} {L : Nat} (payload : List Byte) (hidle : s.phase = .idle)
    (h : L ≤ s.cfg.msgCap) :
    exec (.submit L payload) s = .next (s.stage (submitBytes L payload) L) :=
  execSubmit_eq_next.mpr (.inr (.inr ⟨not_busy_iff.mpr hidle, h, rfl⟩))

theorem exec_result_of_dvalid {s : State} (h : s.dvalid = true) :
    exec .result s = .next (s.reply (.digest (digestBytes s.dg))) :=
  execResult_eq_next.mpr (.inl ⟨h, rfl⟩)

theorem exec_status (s : State) : exec .status s = .next (s.reply (.status s.statusWord)) := rfl

/-- Settles O10: NOP answers the state it is given. -/
theorem nopChangesNothing : Obligations.NopChangesNothing := exec_nop

/-! ### What MSG holds after SUBMIT (R151) -/

/-- A payload of exactly `L` bytes is staged whole. -/
@[simp] theorem submitBytes_length_self (payload : List Byte) :
    submitBytes payload.length payload = payload :=
  List.take_length

theorem read_stage (s : State) (payload : List Byte) (L a : Nat) :
    (s.stage payload L).msg.read a = if h : a < payload.length then payload[a] else s.msg.read a := by
  simp only [State.stage, State.goto_msg, State.clearReport_msg, Memory.read_writeBytes]
  by_cases h : a < payload.length <;> simp [h]

/-- Settles O11: the state after a failed length check, or the one with the whole payload staged. -/
theorem submitChecksLengthAndStages : Obligations.SubmitChecksLengthAndStages := by
  rintro s _ payload hidle rfl
  refine ⟨exec_submit_of_gt payload hidle, fun hfits =>
    ⟨_, exec_submit_of_le payload hidle hfits, ?staged, rfl, rfl, rfl, rfl, rfl⟩⟩
  case staged =>
    rw [submitBytes_length_self]
    exact read_stage s payload payload.length

/-! ### The bytes of a digest (R153, R55) -/

/-- The byte of a word at bit `8 * k` is its base-256 digit `k`. -/
theorem extractByte_toNat (x : Word) (k : Nat) :
    (x.extractLsb' (8 * k) 8).toNat = x.toNat / 256 ^ k % 256 := by
  rw [BitVec.extractLsb'_toNat, Nat.shiftRight_eq_div_pow, Nat.pow_mul]

theorem wordBytes_getD_toNat (x : Word) : ∀ j : Fin 4,
    ((wordBytes x).getD j.val 0).toNat = x.toNat / 256 ^ (3 - j.val) % 256
  | 0 => extractByte_toNat x 3
  | 1 => extractByte_toNat x 2
  | 2 => extractByte_toNat x 1
  | 3 => extractByte_toNat x 0

/-- Word `i` of a digest lies at bytes `4 * i` to `4 * i + 3`. -/
theorem digestBytes_drop_take (x : Words8) : ∀ i : Fin 8,
    ((digestBytes x).drop (4 * i.val)).take 4 = wordBytes (x.get i)
  | 0 | 1 | 2 | 3 | 4 | 5 | 6 | 7 => rfl

theorem digestBytes_getD (x : Words8) (i : Fin 8) (j : Fin 4) :
    (digestBytes x).getD (4 * i.val + j.val) 0 = (wordBytes (x.get i)).getD j.val 0 := by
  rw [← digestBytes_drop_take, List.getD_eq_getElem?_getD, List.getD_eq_getElem?_getD,
    List.getElem?_take_of_lt j.isLt, List.getElem?_drop]

/-- Settles O12: the reply is `digestBytes DG`, byte `j` of word `i` at place `4 * i + j`. -/
theorem resultReturnsDigestBigEndian : Obligations.ResultReturnsDigestBigEndian := by
  refine fun s hvalid => ⟨_, exec_result_of_dvalid hvalid, digestBytes_length s.dg, fun i j => ?_⟩
  rw [digestBytes_getD]
  exact wordBytes_getD_toNat (s.dg.get i) j

/-! ### The status word (R155) -/

/-- The fields of the status word by their weights. -/
theorem statusWord_toNat (s : State) : s.statusWord.toNat =
    16 * s.err.code.toNat + 4 * s.dvalid.toNat + 2 * s.busy.toNat + s.done.toNat := by
  unfold State.statusWord
  generalize s.err.code = e, s.dvalid = v, s.busy = b, s.done = d
  revert e v b d
  decide

theorem statusWord_errField (s : State) : s.statusWord.toNat / 16 % 4 = s.err.code.toNat := by
  have herr := s.err.code.isLt
  have hvalid := s.dvalid.toNat_le
  have hbusy := s.busy.toNat_le
  have hdone := s.done.toNat_le
  rw [statusWord_toNat]
  omega

/-- The single bits: DONE, BUSY, DVALID, and the three that are always 0. -/
theorem statusWord_bits (s : State) :
    s.statusWord.getLsbD 0 = s.done ∧ s.statusWord.getLsbD 1 = s.busy ∧
    s.statusWord.getLsbD 2 = s.dvalid ∧ s.statusWord.getLsbD 3 = false ∧
    s.statusWord.getLsbD 6 = false ∧ s.statusWord.getLsbD 7 = false := by
  simp only [State.statusWord, BitVec.getLsbD_append]
  simp

/-- The combinations of (DONE, BUSY, ERR) that R155 lists, DVALID where it is settled by them: idle since
reset, computing, result ready, failed. -/
theorem reportInv_cases {s : State} (h : ReportInv s) :
    (s.done = false ∧ s.busy = false ∧ s.err = .none ∧ s.dvalid = false) ∨
    (s.done = false ∧ s.busy = true ∧ s.err = .none) ∨
    (s.done = true ∧ s.busy = false ∧ s.err = .none ∧ s.dvalid = true) ∨
    (s.done = false ∧ s.busy = false ∧ s.err ≠ .none) := by
  cases hdone : s.done with
  | true =>
    obtain ⟨hidle, herr, hvalid⟩ := h.done_only hdone
    simp [not_busy_iff.mpr hidle, herr, hvalid]
  | false =>
    by_cases herr : s.err = .none
    · cases hbusy : s.busy with
      | true => simp [herr]
      | false =>
        have hvalid : s.dvalid ≠ true := fun hv => by
          simpa [hdone, herr] using h.idle_outcome (not_busy_iff.mp hbusy) hv
        simp [herr, hvalid]
    · simp [not_busy_iff.mpr (h.err_only herr), herr]

/-- The status words R155 lists. -/
theorem statusWord_mem_of_reportInv {s : State} (h : ReportInv s) : s.statusWord ∈
    ([0x00, 0x02, 0x10, 0x20, 0x30, 0x06, 0x05, 0x14, 0x24, 0x34] : List (BitVec 8)) := by
  unfold State.statusWord
  obtain ⟨hdone, hbusy, herr, hvalid⟩ | ⟨hdone, hbusy, herr⟩ | ⟨hdone, hbusy, herr, hvalid⟩ |
    ⟨hdone, hbusy, herr⟩ := reportInv_cases h
  · rw [hdone, hbusy, herr, hvalid]
    decide
  · rw [hdone, hbusy, herr]
    cases s.dvalid <;> decide
  · rw [hdone, hbusy, herr, hvalid]
    decide
  · rw [hdone, hbusy]
    generalize s.dvalid = v
    generalize s.err = e at herr
    cases e with
    | none => exact absurd rfl herr
    | lengthExceeded | allocationFailure | invariantViolation => cases v <;> decide

/-- Settles O14: the reply is `statusWord`; its bit 1 is BUSY, which is `PHASE ≠ IDLE`. -/
theorem statusReturnsTheStatusWord : Obligations.StatusReturnsTheStatusWord := by
  intro s
  obtain ⟨hdone, hbusy, hvalid, h3, h6, h7⟩ := statusWord_bits s
  have hphase : s.busy = decide (s.phase ≠ .idle) := Bool.eq_iff_iff.mpr (by simp [busy_iff])
  refine ⟨_, exec_status s, hdone, hbusy.trans hphase, hvalid, h3, h6, h7, ?err,
    statusWord_mem_of_reportInv⟩
  case err =>
    rw [statusWord_errField]
    cases s.err <;> rfl

end Sys2Proof.Proofs
end

section
/-!
PROOFS. The family of 60_exceptions.md: the abort.
-/
namespace Sys2Proof.Proofs
open Sys2Proof.Machine

/-! ### The effect of the abort (R164) -/

/-- With ERR and PHASE put back, the aborted state is the state before. -/
theorem abort_frame (s : State) (c : ErrCode) :
    { s.abort c with err := s.err, phase := s.phase } = s := rfl

/-- What R164 claims of an operation that raises, whichever it is. -/
theorem writes_err_and_phase_only_of_exec_abort {s : State} {i : Instr} {c : ErrCode}
    (h : exec i s = .next (s.abort c)) : ∃ t, exec i s = .next t ∧
      t.err = c ∧ t.phase = .idle ∧ { t with err := s.err, phase := s.phase } = s :=
  ⟨s.abort c, h, State.abort_err s c, State.abort_phase s c, abort_frame s c⟩

/-- Settles O19: PSIZE and CHUNK answer `abort` with their own code, each on its own condition. -/
theorem abortWritesErrAndPhaseOnly : Obligations.AbortWritesErrAndPhaseOnly := by
  refine fun s => ⟨fun hlong => ?psize, fun hmod => ?chunk⟩
  case psize =>
    have hgt : s.cfg.pbCap < paddedLen s.len := hlong.trans_eq (paddedLen_eq s.len).symm
    exact writes_err_and_phase_only_of_exec_abort (exec_psize_of_gt hgt)
  case chunk =>
    have hndvd : ¬ 64 ∣ s.plen := mt Nat.mod_eq_zero_of_dvd hmod
    exact writes_err_and_phase_only_of_exec_abort (exec_chunk_of_not_dvd hndvd)

end Sys2Proof.Proofs
end

section
/-!
PROOFS. Across the formats of 30_encoding.md: the decoder and the encoder are inverse to each other.
-/
namespace Sys2Proof.Proofs
open Sys2Proof.Machine

/-! ### Which operation each row of each format gives (R71 to R78) -/

theorem cmdCode_cases : ∀ code : BitVec 2,
    code = cmdNop ∨ code = cmdSubmit ∨ code = cmdResult ∨ code = cmdStatus := by decide

@[simp] theorem code_ofCode : ∀ c : BitVec 4, (Phase.ofCode c).code = c := by decide

theorem decodePlain_eq_ok {i j : Instr} {operands : Option (Nat × List Byte)} :
    decodePlain i operands = .ok j ↔ operands = none ∧ i = j := by
  cases operands <;> simp [decodePlain]

theorem decodeSubmit_eq_ok {i : Instr} {operands : Option (Nat × List Byte)} :
    decodeSubmit operands = .ok i ↔
      ∃ L payload, operands = some (L, payload) ∧ payload.length = L ∧ .submit L payload = i := by
  cases operands with
  | none => simp [decodeSubmit]
  | some o =>
    obtain ⟨L, payload⟩ := o
    by_cases h : payload.length = L
    · simp [decodeSubmit, h]
    · simp [decodeSubmit, h, Ne.symm h]

/-- A command tuple decodes to SUBMIT with its own operands, or to the operation of its code, which then
stands alone. -/
theorem decode_cmd_eq_ok {code : BitVec 2} {operands : Option (Nat × List Byte)} {i : Instr} :
    decode (.cmd code operands) = .ok i ↔
      (code = cmdSubmit ∧ ∃ L payload, operands = some (L, payload) ∧ payload.length = L ∧
        .submit L payload = i) ∨
      operands = none ∧
        (code = cmdNop ∧ .nop = i ∨ code = cmdResult ∧ .result = i ∨ code = cmdStatus ∧ .status = i) := by
  obtain rfl | rfl | rfl | rfl := cmdCode_cases code
  · rw [decode_cmd_cmdNop, decodePlain_eq_ok]
    simp [cmdNop, cmdSubmit, cmdResult, cmdStatus]
  · rw [decode_cmd_cmdSubmit, decodeSubmit_eq_ok]
    simp [cmdNop, cmdSubmit, cmdResult, cmdStatus]
  · rw [decode_cmd_cmdResult, decodePlain_eq_ok]
    simp [cmdNop, cmdSubmit, cmdResult, cmdStatus]
  · rw [decode_cmd_cmdStatus, decodePlain_eq_ok]
    simp [cmdNop, cmdSubmit, cmdResult, cmdStatus]

theorem decode_sig_eq_ok {line : BitVec 1} {i : Instr} :
    decode (.sig line) = .ok i ↔ line = 1 ∧ .reset = i := by
  rw [decode, decodeSig]
  by_cases h : line = 1
  · rw [if_pos h]
    exact ⟨fun e => ⟨h, Except.ok.inj e⟩, fun ⟨_, e⟩ => congrArg Except.ok e⟩
  · rw [if_neg h]
    exact ⟨nofun, fun ⟨hline, _⟩ => absurd hline h⟩

/-- Every phase but IDLE and the reserved one is the phase of exactly the operation it selects. -/
theorem wf_and_encode_of_decodePhase {p : Phase} {i : Instr} (h : decodePhase p = .ok i) :
    i.wf = true ∧ encode i = .uop p.code := by
  cases p <;> cases h <;> exact ⟨rfl, rfl⟩

/-! ### The round trip -/

/-- Settles O1: a SUBMIT decodes by its length check, every other operation by its row. -/
theorem decodeOfEncodeIsIdentity : Obligations.DecodeOfEncodeIsIdentity := by
  intro i hwf
  cases i with
  | submit L payload =>
    have hlength : payload.length = L := beq_iff_eq.mp hwf
    exact decodeSubmit_of_length hlength
  | _ => rfl

/-- Settles O2, format by format. -/
theorem encodeOfDecodeIsIdentity : Obligations.EncodeOfDecodeIsIdentity := by
  intro e i h
  cases e with
  | cmd code operands =>
    obtain ⟨rfl, L, payload, rfl, hlength, rfl⟩ | ⟨rfl, ⟨rfl, rfl⟩ | ⟨rfl, rfl⟩ | ⟨rfl, rfl⟩⟩ :=
      decode_cmd_eq_ok.mp h
    · exact ⟨beq_iff_eq.mpr hlength, rfl⟩
    · exact ⟨rfl, rfl⟩
    · exact ⟨rfl, rfl⟩
    · exact ⟨rfl, rfl⟩
  | uop c =>
    obtain ⟨hwf, hencode⟩ := wf_and_encode_of_decodePhase h
    exact ⟨hwf, hencode.trans (congrArg Selector.uop (code_ofCode c))⟩
  | sig line =>
    obtain ⟨rfl, rfl⟩ := decode_sig_eq_ok.mp h
    exact ⟨rfl, rfl⟩

/-- Settles O4: the two alternatives of `decode_cmd_eq_ok`, the three plain codes being those other than
SUBMIT's. -/
theorem commandTuplesAccepted : Obligations.CommandTuplesAccepted := by
  intro code operands
  constructor
  · rintro ⟨i, h⟩
    obtain ⟨hcode, L, payload, hoperands, hlength, -⟩ | ⟨hnone, hplain⟩ := decode_cmd_eq_ok.mp h
    · exact .inl ⟨hcode, L, payload, hoperands, hlength⟩
    · refine .inr ⟨?_, hnone⟩
      obtain ⟨rfl, -⟩ | ⟨rfl, -⟩ | ⟨rfl, -⟩ := hplain <;> decide
  · rintro (⟨rfl, L, payload, rfl, hlength⟩ | ⟨hcode, rfl⟩)
    · exact ⟨_, decodeSubmit_of_length hlength⟩
    · obtain rfl | rfl | rfl | rfl := cmdCode_cases code
      · exact ⟨_, decodePlain_none .nop⟩
      · exact absurd rfl hcode
      · exact ⟨_, decodePlain_none .result⟩
      · exact ⟨_, decodePlain_none .status⟩

end Sys2Proof.Proofs
end

section
/-!
PROOFS. Who moves (00_scope.md R15): what the schedule does around `exec`, and in which states an operation
can be the one that runs.
-/
namespace Sys2Proof.Proofs
open Sys2Proof.Machine

/-! ### The step on what was fetched -/

theorem step_of_decode_fetch {s : State} {i : Instr} (h : decode s.fetch.1 = .ok i) :
    step s = exec i s.fetch.2 := by
  rw [step, h]

theorem step_of_decode_fetch_error {s : State} {e : DecodeError} (h : decode s.fetch.1 = .error e) :
    step s = undecoded e := by
  rw [step, h]

/-- Settles O5: `step` by its definition, the well-formedness by the round trip (O2). -/
theorem stepRunsDecodedOperation : Obligations.StepRunsDecodedOperation := fun _ i hd =>
  ⟨step_of_decode_fetch hd, (encodeOfDecodeIsIdentity _ i hd).1⟩

/-! ### What is fetched, input by input -/

section
variable {s : State} {rest : List Input} {code : BitVec 2} {operands : Option (Nat × List Byte)}

theorem fetch_nil (hin : s.inputs = []) : s.fetch = (s.engineSelector, s) := by
  rw [State.fetch, hin]

theorem fetch_engineTurn (hin : s.inputs = .engineTurn :: rest) :
    s.fetch = (s.engineSelector, s.withInputs rest) := by
  rw [State.fetch, hin]

theorem fetch_resetLine (hin : s.inputs = .resetLine :: rest) :
    s.fetch = (.sig 1, s.withInputs rest) := by
  rw [State.fetch, hin]

/-- A SUBMIT presented to a busy engine is held, and the engine moves (R152). -/
theorem fetch_held (hin : s.inputs = .command cmdSubmit operands :: rest) (hbusy : s.phase ≠ .idle) :
    s.fetch = (s.engineSelector, s) := by
  rw [State.fetch, hin]
  exact if_pos ⟨rfl, busy_iff.mpr hbusy⟩

theorem fetch_command (hin : s.inputs = .command code operands :: rest)
    (hidle : code = cmdSubmit → s.phase = .idle) :
    s.fetch = (.cmd code operands, s.withInputs rest) := by
  rw [State.fetch, hin]
  exact if_neg fun ⟨hcode, hbusy⟩ => busy_iff.mp hbusy (hidle hcode)

end

/-- Who has the turn: the engine, the RESET input, or a command that is not held. -/
theorem turn_cases (s : State) :
    (∃ l, s.fetch = (s.engineSelector, s.withInputs l)) ∨
    (∃ rest, s.inputs = .resetLine :: rest) ∨
    ∃ code operands rest, s.inputs = .command code operands :: rest ∧
      (code = cmdSubmit → s.phase = .idle) := by
  cases hin : s.inputs with
  | nil => exact .inl ⟨s.inputs, fetch_nil hin⟩
  | cons input rest =>
    cases input with
    | engineTurn => exact .inl ⟨rest, fetch_engineTurn hin⟩
    | resetLine => exact .inr (.inl ⟨rest, rfl⟩)
    | command code operands =>
      by_cases hheld : code = cmdSubmit ∧ s.phase ≠ .idle
      · obtain ⟨rfl, hbusy⟩ := hheld
        exact .inl ⟨s.inputs, fetch_held hin hbusy⟩
      · have hidle : code = cmdSubmit → s.phase = .idle :=
          fun hcode => by_contra fun hbusy => hheld ⟨hcode, hbusy⟩
        exact .inr (.inr ⟨code, operands, rest, rfl, hidle⟩)

/-! ### What is refused (R71) -/

theorem decodePlain_eq_error {i : Instr} {operands : Option (Nat × List Byte)} {e : DecodeError}
    (h : decodePlain i operands = .error e) : e = .operandsUnexpected := by
  cases operands with
  | none => cases h
  | some _ => exact (Except.error.inj h).symm

theorem decodeSubmit_eq_error {operands : Option (Nat × List Byte)} {e : DecodeError}
    (h : decodeSubmit operands = .error e) : e = .operandsMissing ∨ e = .payloadLength := by
  cases operands with
  | none => exact .inl (Except.error.inj h).symm
  | some o =>
    obtain ⟨L, payload⟩ := o
    rw [decodeSubmit] at h
    split at h
    · cases h
    · exact .inr (Except.error.inj h).symm

/-- A command that is no tuple of R71 is refused by the reason's name. -/
theorem undecoded_of_decode_cmd {code : BitVec 2} {operands : Option (Nat × List Byte)} {e : DecodeError}
    (h : decode (.cmd code operands) = .error e) : undecoded e = .refused (.malformedInput e) := by
  have hreason : e = .operandsUnexpected ∨ e = .operandsMissing ∨ e = .payloadLength := by
    obtain rfl | rfl | rfl | rfl := cmdCode_cases code
    · exact .inl (decodePlain_eq_error h)
    · exact .inr (decodeSubmit_eq_error h)
    · exact .inl (decodePlain_eq_error h)
    · exact .inl (decodePlain_eq_error h)
  obtain rfl | rfl | rfl := hreason <;> rfl

/-! ### The engine's turn -/

/-- The engine's turn on the state `t`, whose input has been taken: the micro-operation PHASE selects. -/
theorem step_of_fetch_engine {s t : State} {i : Instr} (hfetch : s.fetch = (s.engineSelector, t))
    (hbusy : s.phase ≠ .idle) (hd : decodePhase s.phase = .ok i) : step s = exec i t := by
  have hsel : decode s.fetch.1 = .ok i := by rw [hfetch, engineSelector_busy hbusy, decode_uop_code, hd]
  rw [step_of_decode_fetch hsel, hfetch]

theorem step_of_fetch_engine_idle {s t : State} (hfetch : s.fetch = (s.engineSelector, t))
    (hidle : s.phase = .idle) : step s = .next t := by
  have hsel : decode s.fetch.1 = .ok .nop := by
    rw [hfetch, engineSelector_idle hidle, decode_cmd_cmdNop, decodePlain_none]
  rw [step_of_decode_fetch hsel, hfetch, exec_nop]

theorem step_of_fetch_engine_error {s t : State} {e : DecodeError}
    (hfetch : s.fetch = (s.engineSelector, t)) (hbusy : s.phase ≠ .idle)
    (hd : decodePhase s.phase = .error e) : step s = undecoded e := by
  refine step_of_decode_fetch_error ?_
  rw [hfetch, engineSelector_busy hbusy, decode_uop_code, hd]

theorem step_resetLine {s : State} {rest : List Input} (hin : s.inputs = .resetLine :: rest) :
    step s = exec .reset (s.withInputs rest) := by
  have hsel : decode s.fetch.1 = .ok .reset := by
    rw [fetch_resetLine hin]
    exact decode_sig_eq_ok.mpr ⟨rfl, rfl⟩
  rw [step_of_decode_fetch hsel, fetch_resetLine hin]

/-- Settles O6: with no input left, the engine's turn on the state itself. -/
theorem phaseSelectsTheMicroOperation : Obligations.PhaseSelectsTheMicroOperation := by
  refine fun s hin => ⟨fun i hbusy hd => ?busy, step_of_fetch_engine_idle (fetch_nil hin)⟩
  case busy =>
    rw [decode_uop_code] at hd
    exact step_of_fetch_engine (fetch_nil hin) hbusy hd

/-- Settles O7, input by input. -/
theorem scheduleSaysWhoMoves : Obligations.ScheduleSaysWhoMoves := by
  refine fun s rest => ⟨fun hin i hbusy hd => ?turn, fun hin => ?idleTurn, step_resetLine,
    fun code operands i hin hidle hd => ?command, fun code operands e hin hidle hd => ?malformed⟩
  case turn =>
    rw [decode_uop_code] at hd
    exact step_of_fetch_engine (fetch_engineTurn hin) hbusy hd
  case idleTurn => exact step_of_fetch_engine_idle (fetch_engineTurn hin)
  case command =>
    have hfetch := fetch_command hin hidle
    have hsel : decode s.fetch.1 = .ok i := by rw [hfetch, hd]
    rw [step_of_decode_fetch hsel, hfetch, State.withInputs]
  case malformed =>
    have hsel : decode s.fetch.1 = .error e := by rw [fetch_command hin hidle, hd]
    rw [step_of_decode_fetch_error hsel, undecoded_of_decode_cmd hd]

/-- A held SUBMIT and no input at all leave the same selector; the operation's answer differs only in the
inputs, which `exec` does not touch. -/
theorem step_held {s t : State} {operands : Option (Nat × List Byte)} {rest : List Input}
    (hbusy : s.phase ≠ .idle) (hin : s.inputs = .command cmdSubmit operands :: rest)
    (h : step (s.withInputs []) = .next t) : step s = .next (t.withInputs s.inputs) := by
  obtain ⟨i, hd, hexec⟩ := step_eq_next.mp h
  have hfetch : (s.withInputs []).fetch = (s.engineSelector, s.withInputs []) := fetch_nil rfl
  rw [hfetch] at hd hexec
  have hsel : decode s.fetch.1 = .ok i := by rw [fetch_held hin hbusy, hd]
  calc step s
    _ = exec i s := by rw [step_of_decode_fetch hsel, fetch_held hin hbusy]
    _ = exec i ((s.withInputs []).withInputs s.inputs) := rfl
    _ = .next (t.withInputs s.inputs) := by rw [exec_withInputs, hexec, mapNext]

theorem exec_submit_of_busy {s : State} (L : Nat) (payload : List Byte) (hbusy : s.phase ≠ .idle) :
    exec (.submit L payload) s = .next s :=
  execSubmit_eq_next.mpr (.inl ⟨busy_iff.mpr hbusy, rfl⟩)

/-- Settles O8. -/
theorem submitIsHeldWhileBusy : Obligations.SubmitIsHeldWhileBusy :=
  ⟨fun _ L payload => exec_submit_of_busy L payload, fun _ _ _ _ => step_held⟩

/-- Settles O9: the reserved phase decodes to an error, and RESET is taken in every phase. -/
theorem reservedPhaseIsStuck : Obligations.ReservedPhaseIsStuck := by
  intro s hp
  have hbusy : s.phase ≠ .idle := by rw [hp]; decide
  have herror : decodePhase s.phase = .error .reservedPhase := by rw [hp]; rfl
  refine ⟨fun hin => ?noInput, fun rest hin => ?turn, ?busyBit, fun rest hin => ?reset⟩
  case noInput => exact step_of_fetch_engine_error (fetch_nil hin) hbusy herror
  case turn => exact step_of_fetch_engine_error (fetch_engineTurn hin) hbusy herror
  case busyBit =>
    obtain ⟨-, hbit, -⟩ := statusWord_bits s
    exact hbit.trans (busy_iff.mpr hbusy)
  case reset => exact ⟨_, step_resetLine hin, phase_of_exec_reset rfl⟩

/-! ### When an operation can be the one that runs -/

/-- The states in which the schedule can give the turn to an operation: the phase of a micro-operation, IDLE
for a SUBMIT (of exactly `L` bytes), every state for the other commands and RESET. -/
def MayRun (s : State) : Instr → Prop
  | .nop | .result | .status | .reset => True
  | .submit L payload => payload.length = L ∧ s.phase = .idle
  | .psize => s.phase = .psize
  | .pzero => s.phase = .pzero
  | .pcopy => s.phase = .pcopy
  | .pstop => s.phase = .pstop
  | .plenf => s.phase = .plenf
  | .chunk => s.phase = .chunk
  | .init => s.phase = .init
  | .wload => s.phase = .wload
  | .wexp => s.phase = .wexp
  | .rload => s.phase = .rload
  | .round => s.phase = .round
  | .feed => s.phase = .feed
  | .next => s.phase = .next
  | .emit => s.phase = .emit

theorem mayRun_of_decodePhase {s : State} {i : Instr} (h : decodePhase s.phase = .ok i) : MayRun s i := by
  generalize hp : s.phase = p at h
  cases p <;> cases h <;> exact hp

/-- Whatever is fetched may run: the engine's own operation, RESET, or a command, SUBMIT only when idle. -/
theorem mayRun_of_decode_fetch {s : State} {i : Instr} (h : decode s.fetch.1 = .ok i) : MayRun s i := by
  obtain ⟨l, -, hsel | hsel | ⟨code, operands, hsel, hidle⟩⟩ := fetch_cases s
  · rw [hsel] at h
    by_cases hp : s.phase = .idle
    · rw [engineSelector_idle hp] at h
      cases h
      trivial
    · rw [engineSelector_busy hp, decode_uop_code] at h
      exact mayRun_of_decodePhase h
  · rw [hsel] at h
    obtain ⟨-, rfl⟩ := decode_sig_eq_ok.mp h
    trivial
  · rw [hsel] at h
    obtain ⟨hcode, L, payload, -, hlength, rfl⟩ | ⟨-, ⟨-, rfl⟩ | ⟨-, rfl⟩ | ⟨-, rfl⟩⟩ :=
      decode_cmd_eq_ok.mp h
    · exact ⟨hlength, hidle hcode⟩
    · trivial
    · trivial
    · trivial

/-- Whether an operation may run depends on PHASE only. -/
theorem mayRun_withInputs {s : State} {i : Instr} (l : List Input) (h : MayRun s i) :
    MayRun (s.withInputs l) i := by
  cases i <;> exact h

/-- What one step can do: an operation that may run, on the state with some inputs. -/
theorem step_mayRun {s t : State} (h : step s = .next t) :
    ∃ i l, MayRun s i ∧ exec i (s.withInputs l) = .next t := by
  obtain ⟨i, hd, hexec⟩ := step_eq_next.mp h
  obtain ⟨l, hstate, -⟩ := fetch_cases s
  exact ⟨i, l, mayRun_of_decode_fetch hd, hstate ▸ hexec⟩

/-- The induction over a step, packaged: a property that does not speak of the inputs, and that every
operation keeps where it may run, is kept by every step. -/
theorem step_keeps {I : State → Prop} (hinputs : ∀ s l, I s → I (s.withInputs l))
    (hexec : ∀ i s t, I s → MayRun s i → exec i s = .next t → I t)
    (s t : State) (h : I s) (hstep : step s = .next t) : I t := by
  obtain ⟨i, l, hrun, hnext⟩ := step_mayRun hstep
  exact hexec i _ t (hinputs s l h) (mayRun_withInputs l hrun) hnext

end Sys2Proof.Proofs
end

section
/-!
PROOFS. What each operation leaves unchanged (10_state.md section 1).
-/
namespace Sys2Proof.Proofs
open Sys2Proof.Machine

/-! ### The writers of each item of state -/

/-- Settles O45, operation by operation: the next state is the one its inversion lemma names, and the laws
of that state's fields leave the clauses whose field it writes, each of which lists the operation. -/
theorem onlyTheNamedWritersWrite : Obligations.OnlyTheNamedWritersWrite := by
  intro i s t h
  cases i with
  | nop => cases h; simp
  | submit L payload =>
    obtain ⟨-, rfl⟩ | ⟨-, -, rfl⟩ | ⟨-, -, rfl⟩ := execSubmit_eq_next.mp h
    · simp
    · simp
    · simp [State.stage]
  | result => obtain ⟨-, rfl⟩ | ⟨-, rfl⟩ := execResult_eq_next.mp h <;> simp
  | status => cases h; simp
  | psize => obtain ⟨-, rfl⟩ | ⟨-, rfl⟩ := execPsize_eq_next.mp h <;> simp
  | pzero => obtain ⟨-, rfl⟩ := execPzero_eq_next.mp h; simp
  | pcopy => obtain ⟨-, -, rfl⟩ := execPcopy_eq_next.mp h; simp
  | pstop => obtain ⟨-, rfl⟩ := execPstop_eq_next.mp h; simp
  | plenf => obtain ⟨-, -, -, rfl⟩ := execPlenf_eq_next.mp h; simp
  | chunk => obtain ⟨-, rfl⟩ | ⟨-, rfl⟩ := execChunk_eq_next.mp h <;> simp
  | init => cases h; simp
  | wload => obtain ⟨-, -, rfl⟩ := execWload_eq_next.mp h; simp
  | wexp => obtain ⟨-, rfl⟩ := execWexp_eq_next.mp h; simp
  | rload => cases h; simp
  | round => obtain ⟨-, rfl⟩ := execRound_eq_next.mp h; simp
  | feed => cases h; simp
  | next => obtain ⟨-, rfl⟩ | ⟨-, rfl⟩ := execNext_eq_next.mp h <;> simp
  | emit => cases h; simp
  | reset => cases h; simp

section
variable {i : Instr} {s t : State}

theorem msg_writers_of_exec (h : exec i s = .next t) (hne : t.msg ≠ s.msg) :
    (∃ L payload, i = .submit L payload) ∨ i = .reset := by
  obtain ⟨hmsg, -⟩ := onlyTheNamedWritersWrite i s t h
  exact hmsg hne

theorem pb_writers_of_exec (h : exec i s = .next t) (hne : t.pb ≠ s.pb) :
    i ∈ [.pzero, .pcopy, .pstop, .plenf, .reset] := by
  obtain ⟨-, -, hpb, -⟩ := onlyTheNamedWritersWrite i s t h
  exact hpb hne

theorem err_writers_of_exec (h : exec i s = .next t) (hne : t.err ≠ s.err) :
    (∃ L payload, i = .submit L payload) ∨ i ∈ [.psize, .chunk, .reset] := by
  obtain ⟨-, -, -, -, -, -, -, -, -, -, -, -, -, -, -, -, herr, -⟩ := onlyTheNamedWritersWrite i s t h
  exact herr hne

theorem replies_writers_of_exec (h : exec i s = .next t) (hne : t.replies ≠ s.replies) :
    i ∈ [.result, .status] := by
  obtain ⟨-, -, -, -, -, -, -, -, -, -, -, -, -, -, -, -, -, hreplies, -⟩ :=
    onlyTheNamedWritersWrite i s t h
  exact hreplies hne

theorem cfg_of_exec (h : exec i s = .next t) : t.cfg = s.cfg := by
  obtain ⟨-, -, -, -, -, -, -, -, -, -, -, -, -, -, -, -, -, -, hcfg, -⟩ := onlyTheNamedWritersWrite i s t h
  exact hcfg

end

/-! ### Responses (30_encoding.md R74) -/

theorem exec_result_of_not_dvalid {s : State} (h : s.dvalid = false) : exec .result s =
    .next (s.drawn.reply (.digest (digestBytes (Config.drawResult s.draws)))) :=
  execResult_eq_next.mpr (.inr ⟨h, rfl⟩)

/-- Settles O13: the draw is eight words, serialised. -/
theorem resultBeforeAnyDigestReturnsADraw : Obligations.ResultBeforeAnyDigestReturnsADraw :=
  fun _ h => ⟨_, digestBytes_length _, exec_result_of_not_dvalid h⟩

/-- Only RESULT and STATUS respond, and each adds one response at the end. -/
theorem replies_of_exec {i : Instr} {s t : State} (h : exec i s = .next t) :
    ∃ new, t.replies = s.replies ++ new ∧ new.length ≤ 1 := by
  by_cases hsame : t.replies = s.replies
  · exact ⟨[], by rw [hsame, List.append_nil], Nat.zero_le 1⟩
  · have hi := replies_writers_of_exec h hsame
    simp only [List.mem_cons, List.not_mem_nil, or_false] at hi
    obtain rfl | rfl := hi
    · obtain ⟨-, rfl⟩ | ⟨-, rfl⟩ := execResult_eq_next.mp h
      · exact ⟨[_], rfl, le_rfl⟩
      · exact ⟨[_], rfl, le_rfl⟩
    · cases h
      exact ⟨[_], rfl, le_rfl⟩

/-- Settles O46: taking an input leaves the responses, and then `replies_of_exec`. -/
theorem repliesAlreadyReturnedStay : Obligations.RepliesAlreadyReturnedStay := by
  intro s t h
  obtain ⟨i, l, -, hexec⟩ := step_mayRun h
  exact replies_of_exec (s := s.withInputs l) hexec

end Sys2Proof.Proofs
end

section
/-!
PROOFS. The memories' canonical form and capacity (20_memory.md R50, log 6).
-/
namespace Sys2Proof.Proofs
open Sys2Proof.Machine

/-! ### The canonical form is canonical -/

theorem wfFrom_cons {lo k : Nat} {v : Byte} {m : Memory} :
    Memory.wfFrom lo ((k, v) :: m) = true ↔
      (lo ≤ k ∧ v ≠ Memory.blank) ∧ Memory.wfFrom (k + 1) m = true := by
  simp only [Memory.wfFrom, Bool.and_eq_true, decide_eq_true_eq]

/-- Below its first address a canonical memory lists nothing. -/
theorem read_of_lt_of_wfFrom {lo a : Nat} {m : Memory} (h : m.wfFrom lo = true) (ha : a < lo) :
    m.read a = Memory.blank := by
  induction m generalizing lo with
  | nil => rfl
  | cons c m ih =>
    obtain ⟨k, v⟩ := c
    obtain ⟨⟨hk, -⟩, htail⟩ := wfFrom_cons.mp h
    rw [Memory.read_of_head, if_neg (by omega)]
    exact ih htail (by omega)

theorem read_cons_self (k : Nat) (v : Byte) (m : Memory) : Memory.read ((k, v) :: m) k = v := by
  rw [Memory.read_of_head, if_pos rfl]

theorem head_le_of_read_eq {lo lo' k k' : Nat} {v v' : Byte} {m m' : Memory}
    (hw : Memory.wfFrom lo ((k, v) :: m) = true) (hw' : Memory.wfFrom lo' ((k', v') :: m') = true)
    (hread : Memory.read ((k, v) :: m) k = Memory.read ((k', v') :: m') k) : k' ≤ k := by
  obtain ⟨⟨-, hv⟩, -⟩ := wfFrom_cons.mp hw
  obtain ⟨⟨-, hv'⟩, htail'⟩ := wfFrom_cons.mp hw'
  by_contra hlt
  have hblank : Memory.read ((k', v') :: m') k = Memory.blank :=
    read_of_lt_of_wfFrom (wfFrom_cons.mpr ⟨⟨le_rfl, hv'⟩, htail'⟩) (Nat.lt_of_not_le hlt)
  exact hv ((read_cons_self k v m).symm.trans (hread.trans hblank))

theorem eq_of_read_eq {lo lo' : Nat} {m m' : Memory} (hw : m.wfFrom lo = true) (hw' : m'.wfFrom lo' = true)
    (hread : ∀ a, m.read a = m'.read a) : m = m' := by
  induction m generalizing lo lo' m' with
  | nil =>
    cases m' with
    | nil => rfl
    | cons c' m' =>
      obtain ⟨k', v'⟩ := c'
      obtain ⟨⟨-, hv'⟩, -⟩ := wfFrom_cons.mp hw'
      exact absurd ((read_cons_self k' v' m').symm.trans (hread k').symm) hv'
  | cons c m ih =>
    obtain ⟨k, v⟩ := c
    cases m' with
    | nil =>
      obtain ⟨⟨-, hv⟩, -⟩ := wfFrom_cons.mp hw
      exact absurd ((read_cons_self k v m).symm.trans (hread k)) hv
    | cons c' m' =>
      obtain ⟨k', v'⟩ := c'
      obtain rfl : k = k' := le_antisymm (head_le_of_read_eq hw' hw (hread k').symm)
        (head_le_of_read_eq hw hw' (hread k))
      obtain rfl : v = v' := by simpa only [read_cons_self] using hread k
      obtain ⟨-, htail⟩ := wfFrom_cons.mp hw
      obtain ⟨-, htail'⟩ := wfFrom_cons.mp hw'
      have hrest : ∀ a, Memory.read m a = Memory.read m' a := by
        intro a
        by_cases ha : k = a
        · subst ha
          rw [read_of_lt_of_wfFrom htail (Nat.lt_succ_self k), read_of_lt_of_wfFrom htail' (Nat.lt_succ_self k)]
        · simpa only [Memory.read_of_head, if_neg ha] using hread a
      rw [ih htail htail' hrest]

/-- Settles O48: `eq_of_read_eq` from address 0. -/
theorem canonicalMemoriesAreEqual : Obligations.CanonicalMemoriesAreEqual :=
  fun _ _ => eq_of_read_eq

/-! ### Canonical and inside its space, as one condition -/

/-- A memory in canonical form that lists no cell at or above `cap`. -/
def Fits (cap : Nat) (m : Memory) : Prop := m.wf = true ∧ m.within cap = true

theorem Fits.nil (cap : Nat) : Fits cap [] := ⟨rfl, rfl⟩

theorem Fits.write {cap : Nat} {m : Memory} (h : Fits cap m) {a : Nat} (b : Byte) (ha : a < cap) :
    Fits cap (m.write a b) :=
  ⟨Memory.wf_write a b h.1, Memory.within_write b ha h.2⟩

theorem Fits.writeBytes {cap : Nat} {m : Memory} (h : Fits cap m) {a : Nat} {bs : List Byte}
    (ha : a + bs.length ≤ cap) : Fits cap (m.writeBytes a bs) :=
  ⟨Memory.wf_writeBytes a bs h.1, Memory.within_writeBytes ha h.2⟩

theorem Fits.ofCells (cap : Nat) (cs : List Host.Cell) : Fits cap (Memory.ofCells cap cs) :=
  ⟨Memory.ofCells_wf cap cs, Memory.ofCells_within cap cs⟩

theorem memoryInv_iff {s : State} : MemoryInv s ↔ Fits s.cfg.msgCap s.msg ∧ Fits s.cfg.pbCap s.pb :=
  ⟨fun h => ⟨⟨h.msg_wf, h.msg_within⟩, h.pb_wf, h.pb_within⟩,
    fun ⟨hmsg, hpb⟩ => ⟨hmsg.1, hmsg.2, hpb.1, hpb.2⟩⟩

/-! ### Every operation keeps it -/

theorem submitBytes_length_le (L : Nat) (payload : List Byte) : (submitBytes L payload).length ≤ L :=
  List.length_take_le L payload

section
variable {i : Instr} {s t : State}

/-- MSG: SUBMIT stages at most `L ≤ MSG_CAP` bytes, RESET draws a canonical memory. -/
theorem msg_fits_of_exec (h : Fits s.cfg.msgCap s.msg) (hexec : exec i s = .next t) :
    Fits s.cfg.msgCap t.msg := by
  by_cases hsame : t.msg = s.msg
  · rwa [hsame]
  · obtain ⟨L, payload, rfl⟩ | rfl := msg_writers_of_exec hexec hsame
    · obtain ⟨-, rfl⟩ | ⟨-, -, rfl⟩ | ⟨-, hfits, rfl⟩ := execSubmit_eq_next.mp hexec
      · exact h
      · exact h
      · refine h.writeBytes ?_
        rw [Nat.zero_add]
        exact (submitBytes_length_le L payload).trans hfits
    · cases hexec
      exact Fits.ofCells _ _

/-- PB: each encoder operation checks the cells it writes, RESET draws a canonical memory. -/
theorem pb_fits_of_exec (h : Fits s.cfg.pbCap s.pb) (hexec : exec i s = .next t) :
    Fits s.cfg.pbCap t.pb := by
  by_cases hsame : t.pb = s.pb
  · rwa [hsame]
  · have hi := pb_writers_of_exec hexec hsame
    simp only [List.mem_cons, List.not_mem_nil, or_false] at hi
    obtain rfl | rfl | rfl | rfl | rfl := hi
    · obtain ⟨hhas, rfl⟩ := execPzero_eq_next.mp hexec
      exact h.writeBytes (by rwa [List.length_replicate])
    · obtain ⟨-, hhas, rfl⟩ := execPcopy_eq_next.mp hexec
      exact h.writeBytes (by rwa [State.message, Memory.readBytes_length])
    · obtain ⟨hhas, rfl⟩ := execPstop_eq_next.mp hexec
      exact h.write _ hhas
    · obtain ⟨-, -, hhas, rfl⟩ := execPlenf_eq_next.mp hexec
      exact h.writeBytes (by rwa [State.lengthField, beBytes_length])
    · cases hexec
      exact Fits.ofCells _ _

theorem memoryInv_of_exec (h : MemoryInv s) (hexec : exec i s = .next t) : MemoryInv t := by
  obtain ⟨hmsg, hpb⟩ := memoryInv_iff.mp h
  rw [memoryInv_iff, cfg_of_exec hexec]
  exact ⟨msg_fits_of_exec hmsg hexec, pb_fits_of_exec hpb hexec⟩

end

/-- Settles O40: `memoryInv_of_exec` for whichever operation the step runs. -/
theorem memoryInvariantIsKept : Obligations.MemoryInvariantIsKept :=
  step_keeps (fun _ _ h => { h with }) fun _ _ _ h _ hexec => memoryInv_of_exec h hexec

end Sys2Proof.Proofs
end

section
/-!
PROOFS. The sequencer's invariant (45_aggregator.md R142) at reset and at every step, and that under it no step stops.
-/
namespace Sys2Proof.Proofs
open Sys2Proof.Machine

/-! ### Legal parameters (00_scope.md R7, R8) -/

theorem legal_iff {p : Params} :
    p.legal = true ↔ p.msgCap ≤ 2 ^ 61 - 1 ∧ p.pbCap % 64 = 0 ∧ 64 ≤ p.pbCap := by
  simp only [Params.legal, Bool.and_eq_true, decide_eq_true_eq, and_assoc]

theorem config_params_legal : Config.params.legal = true := by
  refine legal_iff.mpr ⟨?_, ?_, ?_⟩
  · have hlt : Config.openMsgCap % 2 ^ 61 < 2 ^ 61 := Nat.mod_lt _ (by decide)
    exact Nat.le_sub_one_of_lt hlt
  · exact Nat.mul_mod_right 64 _
  · exact Nat.le_mul_of_pos_right 64 (Nat.succ_pos _)

/-- The bit length of a message that fits MSG is below `2^64` (20_memory.md R54). -/
theorem bitLength_lt_of_legal {p : Params} {L : Nat} (hlegal : p.legal = true) (hL : L ≤ p.msgCap) :
    8 * L < 2 ^ 64 := by
  obtain ⟨hcap, -, -⟩ := legal_iff.mp hlegal
  omega

/-! ### After reset (70_reset_and_hazards.md R180, R181) -/

/-- In IDLE the index may hold any value of its type. -/
theorem indexInPhase_idle (t : Index) : indexInPhase .idle t := by simp [indexInPhase]

theorem sequencerInv_resetWith {p : Params} (hlegal : p.legal = true) :
    SequencerInv (State.resetWith p) where
  cfg_legal := hlegal
  phase_legal := nofun
  len_le := Nat.zero_le _
  plen_blocks := Nat.mod_self 64
  plen_ge := le_rfl
  plen_le := (legal_iff.mp hlegal).2.2
  nch_le := Nat.zero_le _
  ci_le := Nat.zero_le _
  index := indexInPhase_idle _
  sized := nofun
  chunked := nofun

/-- The values RESET draws lie in their registers' types (00_scope.md R9). -/
theorem sequencerInv_of_exec_reset {s t : State} (hlegal : s.cfg.legal = true)
    (hexec : exec .reset s = .next t) : SequencerInv t := by
  cases hexec
  obtain ⟨-, hmod, hge⟩ := legal_iff.mp hlegal
  have hblock : Config.drawPlen s.draws % (s.cfg.pbCap / 64) < s.cfg.pbCap / 64 :=
    Nat.mod_lt _ (Nat.div_pos hge (by decide))
  exact {
    cfg_legal := hlegal
    phase_legal := nofun
    len_le := Nat.le_of_lt_succ (Nat.mod_lt _ (Nat.succ_pos _))
    plen_blocks := Nat.mul_mod_right 64 _
    plen_ge := Nat.le_mul_of_pos_right 64 (by omega)
    plen_le := by
      simp only [State.goto_plen, State.clearFlags_plen, State.scramble_plen, State.goto_cfg,
        State.clearFlags_cfg, State.scramble_cfg]
      omega
    nch_le := Nat.le_of_lt_succ (Nat.mod_lt _ (Nat.succ_pos _))
    ci_le := Nat.le_of_lt_succ (Nat.mod_lt _ (Nat.succ_pos _))
    index := indexInPhase_idle _
    sized := nofun
    chunked := nofun }

theorem memoryInv_of_exec_reset {s t : State} (hexec : exec .reset s = .next t) : MemoryInv t := by
  cases hexec
  exact memoryInv_iff.mpr ⟨Fits.ofCells _ _, Fits.ofCells _ _⟩

/-- Idle with a clear report, the status word is 0x00. -/
theorem statusWord_of_clear {s : State} (hphase : s.phase = .idle) (hdone : s.done = false)
    (hvalid : s.dvalid = false) (herr : s.err = .none) : s.statusWord = 0x00 := by
  rw [State.statusWord, not_busy_iff.mpr hphase, hdone, hvalid, herr]
  decide

/-- Settles O15. -/
theorem resetIdlesAndClearsTheReport : Obligations.ResetIdlesAndClearsTheReport := fun s =>
  ⟨_, rfl, rfl, rfl, rfl, rfl, statusWord_of_clear rfl rfl rfl rfl, rfl, rfl, rfl, fun hlegal =>
    ⟨sequencerInv_of_exec_reset (s := s) hlegal rfl, memoryInv_of_exec_reset (s := s) rfl⟩⟩

/-- Settles O16. -/
theorem resetStateReport : Obligations.ResetStateReport := fun _ =>
  ⟨rfl, rfl, rfl, rfl, statusWord_of_clear rfl rfl rfl rfl, rfl, config_params_legal⟩

theorem reportInv_resetWith (p : Params) : ReportInv (State.resetWith p) where
  done_only := nofun
  err_only := fun h => absurd rfl h
  idle_outcome := nofun

/-- Settles O43. -/
theorem resetStateHasTheInvariant : Obligations.ResetStateHasTheInvariant := fun p hlegal => {
  sequencer := sequencerInv_resetWith hlegal
  memory := memoryInv_iff.mpr ⟨Fits.nil _, Fits.nil _⟩
  report := reportInv_resetWith p
  no_violation := nofun }

/-! ### What a change of phase asks -/

/-- The parameters and the sequencer's sizes are the same in both states. -/
def SameSizes (s t : State) : Prop :=
  t.cfg = s.cfg ∧ t.len = s.len ∧ t.plen = s.plen ∧ t.nch = s.nch ∧ t.ci = s.ci

/-- What the invariant claims of PLEN, NCH and CI in `p` it claims of them in `q` already. -/
abbrev ClaimsNoMore (q p : Phase) : Prop :=
  p ≠ .reserved ∧ (Phase.sized p = true → Phase.sized q = true) ∧
    (Phase.chunked p = true → Phase.chunked q = true)

/-- A step from phase `q` to `p` that leaves the sizes keeps the invariant if it leaves T in the range of `p`. -/
theorem sequencerInv_moves {s t : State} {q : Phase} (h : SequencerInv s) (hq : s.phase = q) (p : Phase)
    (hp : t.phase = p) (hqp : ClaimsNoMore q p) (hsizes : SameSizes s t) (hindex : indexInPhase p t.t) :
    SequencerInv t := by
  obtain ⟨hcfg, hlen, hplen, hnch, hci⟩ := hsizes
  obtain ⟨hlegal, hsized, hchunked⟩ := hqp
  subst hq hp
  exact {
    cfg_legal := hcfg ▸ h.cfg_legal
    phase_legal := hlegal
    len_le := by rw [hlen, hcfg]; exact h.len_le
    plen_blocks := hplen ▸ h.plen_blocks
    plen_ge := hplen ▸ h.plen_ge
    plen_le := by rw [hplen, hcfg]; exact h.plen_le
    nch_le := by rw [hnch, hcfg]; exact h.nch_le
    ci_le := by rw [hci, hcfg]; exact h.ci_le
    index := hindex
    sized := fun hp => by rw [hplen, hlen]; exact h.sized (hsized hp)
    chunked := fun hp => by rw [hplen, hnch, hci]; exact h.chunked (hchunked hp) }

/-! ### Every operation keeps the sequencer's invariant -/

section
variable {s t : State} (h : SequencerInv s)
include h

/-- SUBMIT stages a message of at most MSG_CAP bytes; PSIZE makes PLEN its padded length. -/
theorem sequencerInv_of_exec_submit {L : Nat} {payload : List Byte}
    (hexec : exec (.submit L payload) s = .next t) : SequencerInv t := by
  obtain ⟨-, rfl⟩ | ⟨-, -, rfl⟩ | ⟨-, hfits, rfl⟩ := execSubmit_eq_next.mp hexec
  · exact h
  · exact { h with }
  · exact { h with
      phase_legal := nofun
      len_le := hfits
      index := by simp [State.stage, indexInPhase]
      sized := nofun
      chunked := nofun }

theorem sequencerInv_of_exec_psize (hrun : s.phase = .psize) (hexec : exec .psize s = .next t) :
    SequencerInv t := by
  obtain ⟨-, rfl⟩ | ⟨hfits, rfl⟩ := execPsize_eq_next.mp hexec
  · exact sequencerInv_moves h hrun .idle rfl (by decide)
      ⟨rfl, rfl, rfl, rfl, rfl⟩ (indexInPhase_idle _)
  · exact { h with
      phase_legal := nofun
      plen_blocks := paddedLen_mod s.len
      plen_ge := paddedLen_pos s.len
      plen_le := hfits
      index := by simp [indexInPhase]
      sized := fun _ => rfl
      chunked := nofun }

/-- CHUNK counts at least one chunk and starts at the first; the abort leaves the sizes. -/
theorem sequencerInv_of_exec_chunk (hrun : s.phase = .chunk) (hexec : exec .chunk s = .next t) :
    SequencerInv t := by
  obtain ⟨-, rfl⟩ | ⟨-, rfl⟩ := execChunk_eq_next.mp hexec
  · exact { h with
      phase_legal := nofun
      nch_le := Nat.div_le_div_right h.plen_le
      ci_le := Nat.zero_le _
      index := by simp [indexInPhase]
      sized := fun _ => h.sized (hrun ▸ rfl)
      chunked := fun _ => ⟨rfl, Nat.div_pos h.plen_ge (by decide)⟩ }
  · exact sequencerInv_moves h hrun .idle rfl (by decide)
      ⟨rfl, rfl, rfl, rfl, rfl⟩ (indexInPhase_idle _)

theorem sequencerInv_of_exec_next (hrun : s.phase = .next) (hexec : exec .next s = .next t) :
    SequencerInv t := by
  obtain ⟨hmore, rfl⟩ | ⟨-, rfl⟩ := execNext_eq_next.mp hexec
  · obtain ⟨hnch, -⟩ := h.chunked (hrun ▸ rfl)
    exact { h with
      phase_legal := nofun
      ci_le := hmore.le.trans h.nch_le
      index := by simp [indexInPhase]
      sized := fun _ => h.sized (hrun ▸ rfl)
      chunked := fun _ => ⟨hnch, hmore⟩ }
  · exact sequencerInv_moves h hrun .emit rfl (by decide) ⟨rfl, rfl, rfl, rfl, rfl⟩ (by simp [indexInPhase])

/-- A loop over T stays in its phase below `last` and leaves it at `last`. -/
theorem sequencerInv_of_countsUp {last : Nat} {stay leave : Phase} (hq : s.phase = stay)
    (hcount : CountsUp last stay leave s t) (hsizes : SameSizes s t)
    (hstay : ClaimsNoMore stay stay)
    (hstayIndex : ∀ n : Index, n.val = s.t.val + 1 → s.t.val ≠ last → indexInPhase stay n)
    (hleave : ClaimsNoMore stay leave)
    (hleaveIndex : ∀ n : Index, n.val = s.t.val + 1 → s.t.val = last → indexInPhase leave n) :
    SequencerInv t := by
  obtain ⟨hphase, hindex, -⟩ := hcount
  by_cases hlast : s.t.val = last
  · exact sequencerInv_moves h hq leave (hphase.trans (if_pos hlast)) hleave hsizes (hleaveIndex _ hindex hlast)
  · exact sequencerInv_moves h hq stay (hphase.trans (if_neg hlast)) hstay hsizes (hstayIndex _ hindex hlast)

/-- The operations that leave the sizes: each moves to a phase that claims no more, with T in its range. -/
theorem sequencerInv_of_exec {i : Instr} (hrun : MayRun s i) (hexec : exec i s = .next t) :
    SequencerInv t := by
  have moves {q : Phase} (hq : s.phase = q) (p : Phase) := sequencerInv_moves (t := t) h hq p
  cases i with
  | nop => cases hexec; exact h
  | submit L payload => exact sequencerInv_of_exec_submit h hexec
  | result =>
    obtain ⟨-, rfl⟩ | ⟨-, rfl⟩ := execResult_eq_next.mp hexec
    · exact { h with }
    · exact { h with }
  | status => cases hexec; exact { h with }
  | psize => exact sequencerInv_of_exec_psize h hrun hexec
  | pzero =>
    obtain ⟨-, rfl⟩ := execPzero_eq_next.mp hexec
    exact moves hrun .pcopy rfl (by decide) ⟨rfl, rfl, rfl, rfl, rfl⟩ (by simp [indexInPhase])
  | pcopy =>
    obtain ⟨-, -, rfl⟩ := execPcopy_eq_next.mp hexec
    exact moves hrun .pstop rfl (by decide) ⟨rfl, rfl, rfl, rfl, rfl⟩ (by simp [indexInPhase])
  | pstop =>
    obtain ⟨-, rfl⟩ := execPstop_eq_next.mp hexec
    exact moves hrun .plenf rfl (by decide) ⟨rfl, rfl, rfl, rfl, rfl⟩ (by simp [indexInPhase])
  | plenf =>
    obtain ⟨-, -, -, rfl⟩ := execPlenf_eq_next.mp hexec
    exact moves hrun .chunk rfl (by decide) ⟨rfl, rfl, rfl, rfl, rfl⟩ (by simp [indexInPhase])
  | chunk => exact sequencerInv_of_exec_chunk h hrun hexec
  | init =>
    cases hexec
    exact moves hrun .wload rfl (by decide) ⟨rfl, rfl, rfl, rfl, rfl⟩ (by simp [indexInPhase])
  | wload =>
    obtain ⟨ht, -, rfl⟩ := execWload_eq_next.mp hexec
    exact sequencerInv_of_countsUp h hrun (countsUp_of_exec_wload hexec) ⟨rfl, rfl, rfl, rfl, rfl⟩
      (by decide) (fun n hn hne => by simp [indexInPhase, hn]; omega)
      (by decide) (fun n hn hlast => by simp [indexInPhase, hn, hlast])
  | wexp =>
    obtain ⟨⟨hge, hle⟩, rfl⟩ := execWexp_eq_next.mp hexec
    exact sequencerInv_of_countsUp h hrun (countsUp_of_exec_wexp hexec) ⟨rfl, rfl, rfl, rfl, rfl⟩
      (by decide) (fun n hn hne => by simp [indexInPhase, hn]; omega)
      (by decide) (fun n hn hlast => by simp [indexInPhase, hn, hlast])
  | rload =>
    cases hexec
    exact moves hrun .round rfl (by decide) ⟨rfl, rfl, rfl, rfl, rfl⟩ (by simp [indexInPhase])
  | round =>
    obtain ⟨hle, rfl⟩ := execRound_eq_next.mp hexec
    exact sequencerInv_of_countsUp h hrun (countsUp_of_exec_round hexec) ⟨rfl, rfl, rfl, rfl, rfl⟩
      (by decide) (fun n hn hne => by simp [indexInPhase, hn]; omega)
      (by decide) (fun n hn hlast => by simp [indexInPhase, hn, hlast])
  | feed =>
    cases hexec
    have hindex : s.t.val = 64 := by
      obtain ⟨-, -, -, -, hfeed, -⟩ := h.index
      exact hfeed hrun
    exact moves hrun .next rfl (by decide) ⟨rfl, rfl, rfl, rfl, rfl⟩ (by simp [indexInPhase, hindex])
  | next => exact sequencerInv_of_exec_next h hrun hexec
  | emit =>
    cases hexec
    exact moves hrun .idle rfl (by decide) ⟨rfl, rfl, rfl, rfl, rfl⟩ (indexInPhase_idle _)
  | reset => exact sequencerInv_of_exec_reset h.cfg_legal hexec

end

/-- Settles O39: `sequencerInv_of_exec` for whichever operation the step runs. -/
theorem sequencerInvariantIsKept : Obligations.SequencerInvariantIsKept :=
  step_keeps (fun _ _ h => { h with }) fun _ _ _ h => sequencerInv_of_exec h

end Sys2Proof.Proofs
end

section
/-!
PROOFS. The report of DONE, DVALID, ERR and BUSY (10_state.md section 6), the whole invariant, and that under it
no step stops.
-/
namespace Sys2Proof.Proofs
open Sys2Proof.Machine

/-! ### The report of a busy engine -/

/-- While the engine is busy the report is clear. -/
theorem clear_of_busy {s : State} (h : ReportInv s) (hbusy : s.phase ≠ .idle) :
    s.done = false ∧ s.err = .none := by
  refine ⟨?_, by_contra fun herr => hbusy (h.err_only herr)⟩
  cases hdone : s.done with
  | false => rfl
  | true => exact absurd (h.done_only hdone).1 hbusy

/-- A clear report is right in every busy phase. -/
theorem reportInv_of_clear {s : State} (hbusy : s.phase ≠ .idle) (hdone : s.done = false)
    (herr : s.err = .none) : ReportInv s where
  done_only := fun h => absurd (hdone.symm.trans h) (by decide)
  err_only := fun h => absurd herr h
  idle_outcome := fun hidle => absurd hidle hbusy

/-- So is an error, without DONE, in IDLE. -/
theorem reportInv_of_error {s : State} (hidle : s.phase = .idle) (hdone : s.done = false)
    (herr : s.err ≠ .none) : ReportInv s where
  done_only := fun h => absurd (hdone.symm.trans h) (by decide)
  err_only := fun _ => hidle
  idle_outcome := fun _ _ => .inr herr

section
variable {s t : State} (h : ReportInv s)
include h

/-- A micro-operation that leaves the report and the engine busy keeps the invariant. -/
theorem reportInv_of_stays_busy {q : Phase} (hq : s.phase = q) (hbusy : q ≠ .idle) (hbusy' : t.phase ≠ .idle)
    (hdone : t.done = s.done) (herr : t.err = s.err) : ReportInv t := by
  obtain ⟨hdone', herr'⟩ := clear_of_busy h (hq.trans_ne hbusy)
  exact reportInv_of_clear hbusy' (hdone.trans hdone') (herr.trans herr')

/-- So does an abort (60_exceptions.md R164). -/
theorem reportInv_abort {q : Phase} (hq : s.phase = q) (hbusy : q ≠ .idle) {c : ErrCode} (hc : c ≠ .none) :
    ReportInv (s.abort c) :=
  reportInv_of_error rfl (clear_of_busy h (hq.trans_ne hbusy)).1 hc

theorem reportInv_of_exec {i : Instr} (hrun : MayRun s i) (hexec : exec i s = .next t) : ReportInv t := by
  have busy {q : Phase} (hq : s.phase = q) := reportInv_of_stays_busy (t := t) h hq
  cases i with
  | nop => cases hexec; exact h
  | submit L payload =>
    obtain ⟨-, hidle⟩ := hrun
    obtain ⟨hbusy, -⟩ | ⟨-, -, rfl⟩ | ⟨-, -, rfl⟩ := execSubmit_eq_next.mp hexec
    · exact absurd hidle (busy_iff.mp hbusy)
    · exact reportInv_of_error hidle rfl nofun
    · exact reportInv_of_clear nofun rfl rfl
  | result =>
    obtain ⟨-, rfl⟩ | ⟨-, rfl⟩ := execResult_eq_next.mp hexec
    · exact { h with }
    · exact { h with }
  | status => cases hexec; exact { h with }
  | psize =>
    obtain ⟨-, rfl⟩ | ⟨-, rfl⟩ := execPsize_eq_next.mp hexec
    · exact reportInv_abort h hrun nofun nofun
    · exact busy hrun nofun nofun rfl rfl
  | pzero =>
    obtain ⟨-, rfl⟩ := execPzero_eq_next.mp hexec
    exact busy hrun nofun nofun rfl rfl
  | pcopy =>
    obtain ⟨-, -, rfl⟩ := execPcopy_eq_next.mp hexec
    exact busy hrun nofun nofun rfl rfl
  | pstop =>
    obtain ⟨-, rfl⟩ := execPstop_eq_next.mp hexec
    exact busy hrun nofun nofun rfl rfl
  | plenf =>
    obtain ⟨-, -, -, rfl⟩ := execPlenf_eq_next.mp hexec
    exact busy hrun nofun nofun rfl rfl
  | chunk =>
    obtain ⟨-, rfl⟩ | ⟨-, rfl⟩ := execChunk_eq_next.mp hexec
    · exact busy hrun nofun nofun rfl rfl
    · exact reportInv_abort h hrun nofun nofun
  | init => cases hexec; exact busy hrun nofun nofun rfl rfl
  | wload =>
    obtain ⟨-, -, rfl⟩ := execWload_eq_next.mp hexec
    exact busy hrun nofun (by rw [State.goto_phase]; split <;> decide) rfl rfl
  | wexp =>
    obtain ⟨-, rfl⟩ := execWexp_eq_next.mp hexec
    exact busy hrun nofun (by rw [State.goto_phase]; split <;> decide) rfl rfl
  | rload => cases hexec; exact busy hrun nofun nofun rfl rfl
  | round =>
    obtain ⟨-, rfl⟩ := execRound_eq_next.mp hexec
    exact busy hrun nofun (by rw [State.goto_phase]; split <;> decide) rfl rfl
  | feed => cases hexec; exact busy hrun nofun nofun rfl rfl
  | next =>
    obtain ⟨-, rfl⟩ | ⟨-, rfl⟩ := execNext_eq_next.mp hexec
    · exact busy hrun nofun nofun rfl rfl
    · exact busy hrun nofun nofun rfl rfl
  | emit =>
    cases hexec
    obtain ⟨-, herr⟩ := clear_of_busy h (Eq.trans_ne hrun nofun)
    exact ⟨fun _ => ⟨rfl, herr, rfl⟩, fun hne => absurd herr hne, fun _ _ => .inl rfl⟩
  | reset => cases hexec; exact ⟨nofun, fun hne => absurd rfl hne, nofun⟩

end

/-- Settles O41: `reportInv_of_exec` for whichever operation the step runs. -/
theorem reportInvariantIsKept : Obligations.ReportInvariantIsKept :=
  step_keeps (fun _ _ h => { h with }) fun _ _ _ h => reportInv_of_exec h

/-! ### The whole invariant (42_chunker.md R121) -/

/-- Of the operations that write ERR only CHUNK could report InvariantViolation, and PLEN is a multiple of 64. -/
theorem err_ne_violation_of_exec {i : Instr} {s t : State} (hblocks : s.plen % 64 = 0)
    (h : s.err ≠ .invariantViolation) (hexec : exec i s = .next t) : t.err ≠ .invariantViolation := by
  by_cases hsame : t.err = s.err
  · rwa [hsame]
  · have hi := err_writers_of_exec hexec hsame
    simp only [List.mem_cons, List.not_mem_nil, or_false] at hi
    obtain ⟨L, payload, rfl⟩ | rfl | rfl | rfl := hi
    · obtain ⟨-, rfl⟩ | ⟨-, -, rfl⟩ | ⟨-, -, rfl⟩ := execSubmit_eq_next.mp hexec
      · exact h
      · exact nofun
      · exact nofun
    · obtain ⟨-, rfl⟩ | ⟨-, rfl⟩ := execPsize_eq_next.mp hexec
      · exact nofun
      · exact h
    · obtain ⟨-, rfl⟩ | ⟨hragged, -⟩ := execChunk_eq_next.mp hexec
      · exact h
      · exact absurd hblocks hragged
    · cases hexec
      exact nofun

theorem step_keeps_inv {s t : State} (h : Inv s) (hstep : step s = .next t) : Inv t where
  sequencer := sequencerInvariantIsKept s t h.sequencer hstep
  memory := memoryInvariantIsKept s t h.memory hstep
  report := reportInvariantIsKept s t h.report hstep
  no_violation := by
    obtain ⟨i, l, -, hexec⟩ := step_mayRun hstep
    exact err_ne_violation_of_exec (s := s.withInputs l) h.sequencer.plen_blocks h.no_violation hexec

/-- Settles O42. -/
theorem invariantViolationNeverReported : Obligations.InvariantViolationNeverReported :=
  fun _ _ h hstep => ⟨step_keeps_inv h hstep, (step_keeps_inv h hstep).no_violation⟩

/-! ### Under the sequencer's invariant no operation stops (R142: every index and address is in range) -/

section
variable {s : State} (h : SequencerInv s)
include h

theorem exec_answers {i : Instr} (hrun : MayRun s i) : ∃ t, exec i s = .next t := by
  obtain ⟨hwload, hwexp, -, hround, -, -⟩ := h.index
  have hroom (hsized : Phase.sized s.phase = true) : s.len < s.cfg.pbCap :=
    calc s.len
      _ < s.len + 9 := by omega
      _ ≤ paddedLen s.len := paddedLen_ge s.len
      _ = s.plen := (h.sized hsized).symm
      _ ≤ s.cfg.pbCap := h.plen_le
  cases i with
  | nop => exact ⟨_, exec_nop s⟩
  | submit L payload =>
    obtain ⟨-, hidle⟩ := hrun
    by_cases hfits : L ≤ s.cfg.msgCap
    · exact ⟨_, exec_submit_of_le payload hidle hfits⟩
    · exact ⟨_, exec_submit_of_gt payload hidle (Nat.lt_of_not_le hfits)⟩
  | result =>
    cases hvalid : s.dvalid with
    | false => exact ⟨_, exec_result_of_not_dvalid hvalid⟩
    | true => exact ⟨_, exec_result_of_dvalid hvalid⟩
  | status => exact ⟨_, exec_status s⟩
  | psize =>
    by_cases hfits : paddedLen s.len ≤ s.cfg.pbCap
    · exact ⟨_, exec_psize_of_le hfits⟩
    · exact ⟨_, exec_psize_of_gt (Nat.lt_of_not_le hfits)⟩
  | pzero => exact ⟨_, exec_pzero h.plen_le⟩
  | pcopy => exact ⟨_, exec_pcopy h.len_le (hroom (congrArg Phase.sized hrun)).le⟩
  | pstop => exact ⟨_, exec_pstop (hroom (congrArg Phase.sized hrun))⟩
  | plenf =>
    have hge : 8 ≤ s.plen := le_trans (by decide) h.plen_ge
    exact ⟨_, exec_plenf (bitLength_lt_of_legal h.cfg_legal h.len_le) hge h.plen_le⟩
  | chunk => exact ⟨_, exec_chunk_of_dvd (Nat.dvd_of_mod_eq_zero h.plen_blocks)⟩
  | init => exact ⟨_, exec_init s⟩
  | wload =>
    obtain ⟨hnch, hci⟩ := h.chunked (congrArg Phase.chunked hrun)
    have ht : s.t.val ≤ 15 := hwload hrun
    have hblocks := h.plen_blocks
    have hle := h.plen_le
    exact ⟨_, exec_wload ht (by omega)⟩
  | wexp =>
    obtain ⟨hge, hle⟩ := hwexp hrun
    exact ⟨_, exec_wexp hge hle⟩
  | rload => exact ⟨_, exec_rload s⟩
  | round => exact ⟨_, exec_round (hround hrun)⟩
  | feed => exact ⟨_, exec_feed s⟩
  | next =>
    by_cases hmore : s.ci + 1 < s.nch
    · exact ⟨_, exec_next_of_lt hmore⟩
    · exact ⟨_, exec_next_of_le (Nat.le_of_not_lt hmore)⟩
  | emit => exact ⟨_, exec_emit s⟩
  | reset => exact ⟨_, rfl⟩

/-- What has the turn decodes: PHASE is not the reserved one. -/
theorem engineSelector_decodes : ∃ i, decode s.engineSelector = .ok i := by
  by_cases hidle : s.phase = .idle
  · rw [engineSelector_idle hidle]
    exact ⟨_, decodePlain_none .nop⟩
  · rw [engineSelector_busy hidle, decode_uop_code]
    have hlegal := h.phase_legal
    generalize s.phase = p at hidle hlegal
    cases p with
    | idle => exact absurd rfl hidle
    | reserved => exact absurd rfl hlegal
    | _ => exact ⟨_, rfl⟩

/-- So does every input but a tuple that is no command. -/
theorem fetch_decodes (hwf : s.inputWellFormed = true) : ∃ i, decode s.fetch.1 = .ok i := by
  obtain ⟨l, hfetch⟩ | ⟨rest, hin⟩ | ⟨code, operands, rest, hin, hidle⟩ := turn_cases s
  · rw [hfetch]
    exact engineSelector_decodes h
  · rw [fetch_resetLine hin]
    exact ⟨.reset, decode_sig_eq_ok.mpr ⟨rfl, rfl⟩⟩
  · rw [fetch_command hin hidle]
    simp only [State.inputWellFormed, hin] at hwf
    cases hd : decode (.cmd code operands) with
    | ok i => exact ⟨i, rfl⟩
    | error e =>
      rw [hd] at hwf
      cases hwf

end

/-- Settles O44: what is fetched decodes, and may run; so it answers. -/
theorem noStepFaultsUnderTheInvariant : Obligations.NoStepFaultsUnderTheInvariant := by
  intro s h hwf
  obtain ⟨i, hd⟩ := fetch_decodes h.sequencer hwf
  obtain ⟨l, hstate, -⟩ := fetch_cases s
  have hrun : MayRun (s.withInputs l) i := mayRun_withInputs l (mayRun_of_decode_fetch hd)
  obtain ⟨t, hexec⟩ := exec_answers (s := s.withInputs l) { h.sequencer with } hrun
  exact ⟨t, step_eq_next.mpr ⟨i, hd, hstate ▸ hexec⟩⟩

end Sys2Proof.Proofs
end

section
/-!
PROOFS. Noninterference (45_aggregator.md section 2): the control part of the next state depends on the control
part alone.
-/
namespace Sys2Proof.Proofs
open Sys2Proof.Machine

/-- The state with the control part `c` and the data of `d`. -/
def withControl (d : State) (c : Control) : State :=
  { d with phase := c.phase, t := c.t, ci := c.ci, nch := c.nch, plen := c.plen, len := c.len, cfg := c.cfg,
           inputs := c.inputs }

/-- The states that agree with `s` on control are those that differ from it in data. -/
theorem control_eq_iff {s u : State} : s.control = u.control ↔ ∃ d, u = withControl d s.control :=
  ⟨fun h => ⟨u, by rw [h]; rfl⟩, fun ⟨_, h⟩ => by rw [h]; rfl⟩

section
variable {s u : State} (hc : s.control = u.control)
include hc

/-! ### The operations -/

/-- Every condition an operation checks, and every control field it writes, is a function of control; only
RESET draws new values. -/
theorem exec_control {i : Instr} {t : State} (hi : i ≠ .reset) (hexec : exec i s = .next t) :
    ∃ v, exec i u = .next v ∧ v.control = t.control := by
  obtain ⟨d, rfl⟩ := control_eq_iff.mp hc
  cases i with
  | nop => cases hexec; exact ⟨_, rfl, rfl⟩
  | submit L payload =>
    obtain ⟨hbusy, rfl⟩ | ⟨hidle, hlong, rfl⟩ | ⟨hidle, hfits, rfl⟩ := execSubmit_eq_next.mp hexec
    · exact ⟨_, execSubmit_eq_next.mpr (.inl ⟨hbusy, rfl⟩), rfl⟩
    · exact ⟨_, execSubmit_eq_next.mpr (.inr (.inl ⟨hidle, hlong, rfl⟩)), rfl⟩
    · exact ⟨_, execSubmit_eq_next.mpr (.inr (.inr ⟨hidle, hfits, rfl⟩)), rfl⟩
  | result =>
    have hsame : t.control = s.control := by
      obtain ⟨-, rfl⟩ | ⟨-, rfl⟩ := execResult_eq_next.mp hexec <;> rfl
    rw [hsame]
    cases hvalid : d.dvalid with
    | false => exact ⟨_, exec_result_of_not_dvalid hvalid, rfl⟩
    | true => exact ⟨_, exec_result_of_dvalid hvalid, rfl⟩
  | status => cases hexec; exact ⟨_, rfl, rfl⟩
  | psize =>
    obtain ⟨hlong, rfl⟩ | ⟨hfits, rfl⟩ := execPsize_eq_next.mp hexec
    · exact ⟨_, execPsize_eq_next.mpr (.inl ⟨hlong, rfl⟩), rfl⟩
    · exact ⟨_, execPsize_eq_next.mpr (.inr ⟨hfits, rfl⟩), rfl⟩
  | pzero =>
    obtain ⟨hhas, rfl⟩ := execPzero_eq_next.mp hexec
    exact ⟨_, execPzero_eq_next.mpr ⟨hhas, rfl⟩, rfl⟩
  | pcopy =>
    obtain ⟨hmsg, hpb, rfl⟩ := execPcopy_eq_next.mp hexec
    exact ⟨_, execPcopy_eq_next.mpr ⟨hmsg, hpb, rfl⟩, rfl⟩
  | pstop =>
    obtain ⟨hhas, rfl⟩ := execPstop_eq_next.mp hexec
    exact ⟨_, execPstop_eq_next.mpr ⟨hhas, rfl⟩, rfl⟩
  | plenf =>
    obtain ⟨hlen, hge, hhas, rfl⟩ := execPlenf_eq_next.mp hexec
    exact ⟨_, execPlenf_eq_next.mpr ⟨hlen, hge, hhas, rfl⟩, rfl⟩
  | chunk =>
    obtain ⟨hwhole, rfl⟩ | ⟨hragged, rfl⟩ := execChunk_eq_next.mp hexec
    · exact ⟨_, execChunk_eq_next.mpr (.inl ⟨hwhole, rfl⟩), rfl⟩
    · exact ⟨_, execChunk_eq_next.mpr (.inr ⟨hragged, rfl⟩), rfl⟩
  | init => cases hexec; exact ⟨_, rfl, rfl⟩
  | wload =>
    obtain ⟨ht, hhas, rfl⟩ := execWload_eq_next.mp hexec
    exact ⟨_, execWload_eq_next.mpr ⟨ht, hhas, rfl⟩, rfl⟩
  | wexp =>
    obtain ⟨ht, rfl⟩ := execWexp_eq_next.mp hexec
    exact ⟨_, execWexp_eq_next.mpr ⟨ht, rfl⟩, rfl⟩
  | rload => cases hexec; exact ⟨_, rfl, rfl⟩
  | round =>
    obtain ⟨ht, rfl⟩ := execRound_eq_next.mp hexec
    exact ⟨_, execRound_eq_next.mpr ⟨ht, rfl⟩, rfl⟩
  | feed => cases hexec; exact ⟨_, rfl, rfl⟩
  | next =>
    obtain ⟨hmore, rfl⟩ | ⟨hdone, rfl⟩ := execNext_eq_next.mp hexec
    · exact ⟨_, execNext_eq_next.mpr (.inl ⟨hmore, rfl⟩), rfl⟩
    · exact ⟨_, execNext_eq_next.mpr (.inr ⟨hdone, rfl⟩), rfl⟩
  | emit => cases hexec; exact ⟨_, rfl, rfl⟩
  | reset => exact absurd rfl hi

/-! ### The fetch -/

theorem fetch_control : u.fetch.1 = s.fetch.1 ∧ s.fetch.2.control = u.fetch.2.control := by
  obtain ⟨d, rfl⟩ := control_eq_iff.mp hc
  cases hin : s.inputs with
  | nil =>
    rw [fetch_nil hin, fetch_nil (s := withControl d s.control) hin]
    exact ⟨rfl, rfl⟩
  | cons input rest =>
    cases input with
    | engineTurn =>
      rw [fetch_engineTurn hin, fetch_engineTurn (s := withControl d s.control) hin]
      exact ⟨rfl, rfl⟩
    | resetLine =>
      rw [fetch_resetLine hin, fetch_resetLine (s := withControl d s.control) hin]
      exact ⟨rfl, rfl⟩
    | command code operands =>
      by_cases hheld : code = cmdSubmit ∧ s.phase ≠ .idle
      · obtain ⟨rfl, hbusy⟩ := hheld
        rw [fetch_held hin hbusy, fetch_held (s := withControl d s.control) hin hbusy]
        exact ⟨rfl, rfl⟩
      · have hidle : code = cmdSubmit → s.phase = .idle :=
          fun hcode => by_contra fun hbusy => hheld ⟨hcode, hbusy⟩
        rw [fetch_command hin hidle, fetch_command (s := withControl d s.control) hin hidle]
        exact ⟨rfl, rfl⟩

end

/-- RESET runs only where the RESET input is at the head of the schedule. -/
theorem head_of_decode_fetch_reset {s : State} (h : decode s.fetch.1 = .ok .reset) :
    s.inputs.head? = some .resetLine := by
  have hsel : s.fetch.1 = .sig 1 := (encodeOfDecodeIsIdentity _ _ h).2.symm
  have hengine : s.engineSelector ≠ .sig 1 := by
    rw [State.engineSelector]
    split <;> exact nofun
  obtain ⟨l, hfetch⟩ | ⟨rest, hin⟩ | ⟨code, operands, rest, hin, hidle⟩ := turn_cases s
  · rw [hfetch] at hsel
    exact absurd hsel hengine
  · rw [hin, List.head?_cons]
  · rw [fetch_command hin hidle] at hsel
    cases hsel

/-- Settles O47: the fetch selects the same operation in both states, and it is not RESET. -/
theorem controlIsIndependentOfData : Obligations.ControlIsIndependentOfData := by
  intro s u t hc hhead hstep
  obtain ⟨i, hd, hexec⟩ := step_eq_next.mp hstep
  have hi : i ≠ .reset := by
    rintro rfl
    exact hhead (head_of_decode_fetch_reset hd)
  obtain ⟨hsel, hstate⟩ := fetch_control hc
  obtain ⟨v, hv, hcontrol⟩ := exec_control hstate hi hexec
  exact ⟨v, step_eq_next.mpr ⟨i, hsel ▸ hd, hv⟩, hcontrol⟩

end Sys2Proof.Proofs
end

section
/-!
PROOFS. The encoder as a whole (41_encoder.md R115): five engine steps and the padded block of 20_memory.md R51.
-/
namespace Sys2Proof.Proofs
open Sys2Proof.Machine

/-! ### What the five steps leave in PB -/

/-- PB after PSTOP, on a state in PSIZE: zeros up to the padded length, the message over them, the stop byte. -/
def stoppedBlock (s : State) : Memory :=
  let copied := (s.pb.writeBytes 0 (List.replicate (paddedLen s.len) 0)).writeBytes 0 s.message
  copied.write s.len (copied.read s.len ||| 0x80)

/-- PB after PLENF: the length field over its last eight cells. -/
def encodedBlock (s : State) : Memory :=
  (stoppedBlock s).writeBytes (paddedLen s.len - 8) s.lengthField

/-- PSIZE, PZERO, PCOPY, PSTOP, PLENF. -/
theorem run_encoder {s : State} (hp : s.phase = .psize) (hin : s.inputs = []) (hlegal : s.cfg.legal = true)
    (hlen : s.len ≤ s.cfg.msgCap) (hfits : paddedLen s.len ≤ s.cfg.pbCap) :
    stepN 5 s =
      .next { s with pb := encodedBlock s, plen := paddedLen s.len, phase := .chunk } := by
  have hroom : s.len + 9 ≤ s.cfg.pbCap := (paddedLen_ge s.len).trans hfits
  have hge : 8 ≤ paddedLen s.len := le_trans (by decide) (paddedLen_pos s.len)
  refine Eq.trans (stepN_succ_engine hin (congrArg decodePhase hp) (exec_psize_of_le hfits)) ?_
  refine Eq.trans (stepN_succ_engine hin rfl (exec_pzero hfits)) ?_
  refine Eq.trans (stepN_succ_engine hin rfl (exec_pcopy hlen (le_of_add_le_left hroom))) ?_
  refine Eq.trans (stepN_succ_engine hin rfl (exec_pstop (lt_of_lt_of_le (by simp) hroom))) ?_
  exact stepN_succ_engine hin rfl (exec_plenf (bitLength_lt_of_legal hlegal hlen) hge hfits)

theorem read_stoppedBlock (s : State) (a : Nat) : (stoppedBlock s).read a =
    if a < s.len then s.msg.read a else if a = s.len then 0x80
    else if a < paddedLen s.len then 0x00 else s.pb.read a := by
  have hlt : s.len < paddedLen s.len := lt_of_lt_of_le (by simp) (paddedLen_ge s.len)
  simp only [stoppedBlock, Memory.read_write, read_writeBytes_message, read_writeBytes_zeros, lt_irrefl,
    if_false, if_pos hlt]
  by_cases ha : a = s.len
  · rw [if_pos ha, if_neg (by omega), if_pos ha]
    decide
  · rw [if_neg ha, if_neg ha]

/-- Outside the length field the block is the one PSTOP left. -/
theorem read_encodedBlock_outside (s : State) {a : Nat} (ha : a < paddedLen s.len - 8 ∨ paddedLen s.len ≤ a) :
    (encodedBlock s).read a = (stoppedBlock s).read a := by
  have hge := paddedLen_pos s.len
  exact read_writeBytes_lengthField_outside _ s (by omega)

theorem read_encodedBlock_lengthField (s : State) {j : Nat} (hj : j < 8) :
    ((encodedBlock s).read (paddedLen s.len - 8 + j)).toNat = 8 * s.len / 256 ^ (7 - j) % 256 :=
  read_writeBytes_lengthField _ s _ hj

/-- Settles O24: the run of `run_encoder`, its block read region by region. -/
theorem encoderProducesThePaddedBlock : Obligations.EncoderProducesThePaddedBlock := by
  rintro s _ hp hin hlegal hlen rfl hfits
  rw [← paddedLen_eq] at hfits ⊢
  have hroom := paddedLen_ge s.len
  refine ⟨_, run_encoder hp hin hlegal hlen hfits, rfl, rfl, paddedLen_mod s.len, hroom,
    fun a ha => ?message, ?stop, fun a ha ha' => ?zeros, fun j => read_encodedBlock_lengthField s,
    fun a ha => ?above, rfl⟩
  case message => rw [read_encodedBlock_outside s (by omega), read_stoppedBlock, if_pos ha]
  case stop => rw [read_encodedBlock_outside s (by omega), read_stoppedBlock, if_neg (lt_irrefl _), if_pos rfl]
  case zeros =>
    rw [read_encodedBlock_outside s (.inl ha'), read_stoppedBlock, if_neg (by omega), if_neg (by omega),
      if_pos (by omega)]
  case above =>
    rw [read_encodedBlock_outside s (.inr ha), read_stoppedBlock, if_neg (by omega), if_neg (by omega),
      if_neg (by omega)]

/-! ### The block as a function of the message (R51) -/

/-- Below the padded length PB holds the bytes of `blockByte`, whatever it held before. -/
theorem read_encodedBlock_eq_blockByte {s : State} {m : List Byte} (hlen : s.len = m.length)
    (hmsg : ∀ a, a < m.length → s.msg.read a = m.getD a 0) {a : Nat} (ha : a < paddedLen m.length) :
    (encodedBlock s).read a = blockByte m a := by
  have hroom := paddedLen_ge m.length
  by_cases hfield : a < paddedLen m.length - 8
  · rw [read_encodedBlock_outside s (.inl (hlen ▸ hfield)), read_stoppedBlock, blockByte, hlen, if_pos ha,
      if_pos hfield]
    split
    · exact hmsg a ‹_›
    · rfl
  · obtain ⟨j, rfl⟩ : ∃ j, a = paddedLen m.length - 8 + j := ⟨a - (paddedLen m.length - 8), by omega⟩
    have hplace : paddedLen m.length - 1 - (paddedLen m.length - 8 + j) = 7 - j := by omega
    apply BitVec.eq_of_toNat_eq
    rw [blockByte, if_neg (by omega), if_neg (by omega), if_neg hfield, hplace, BitVec.toNat_ofNat, ← hlen]
    exact read_encodedBlock_lengthField s (by omega)

end Sys2Proof.Proofs
end

section
/-!
PROOFS. One chunk: the schedule (43_schedule.md R127) and the compression (44_compress.md R133) as runs.
-/
namespace Sys2Proof.Proofs
open Sys2Proof.Machine

/-! ### Sixty-four steps of the expander -/

/-- The bytes of chunk CI in PB. -/
def chunkBytes (s : State) (k : Nat) : Byte := s.pb.read (64 * s.ci + k)

/-- Sixteen WLOAD and forty-eight WEXP steps. -/
theorem run_schedule {s : State} (hp : s.phase = .wload) (ht : s.t = 0) (hin : s.inputs = [])
    (hroom : 64 * s.ci + 64 ≤ s.cfg.pbCap) :
    stepN 64 s = .next { s with w := schedule (chunkBytes s), t := 64, phase := .rload } := by
  rw [← schedule_any (chunkBytes s) s.w]
  refine Eq.trans (stepN_add (n := 48) (run_wload hp ht hin hroom 16 le_rfl)) ?_
  exact run_wexp rfl rfl (by exact hin) 48 le_rfl

theorem wAt_schedule_of_lt (b : Nat → Byte) {i : Nat} (hi : i < 16) :
    wAt (schedule b) i = packWord (b (4 * i)) (b (4 * i + 1)) (b (4 * i + 2)) (b (4 * i + 3)) := by
  rw [schedule, wAt_expandWords_low _ 48 le_rfl i (.inl hi), wAt_loadWords b _ 16 le_rfl, if_pos hi]

theorem wAt_schedule_of_ge (b : Nat → Byte) {i : Nat} (hge : 16 ≤ i) (hlt : i < 64) :
    wAt (schedule b) i = expandWord (wAt (schedule b) (i - 16)) (wAt (schedule b) (i - 15))
      (wAt (schedule b) (i - 7)) (wAt (schedule b) (i - 2)) :=
  wAt_expandWords_high _ 48 le_rfl i hge hlt

/-- Settles O32: W is `schedule` of the chunk's bytes, whose words are these. -/
theorem expanderProducesTheSchedule : Obligations.ExpanderProducesTheSchedule := by
  refine fun s hp ht hin hroom => ⟨_, run_schedule hp ht hin hroom, rfl, rfl, fun i hi => ?_,
    fun i => wAt_schedule_of_ge (chunkBytes s), rfl, rfl⟩
  simp only [wAt_schedule_of_lt _ hi, chunkBytes, Nat.add_assoc]

/-! ### Sixty-six steps of the mixing core -/

/-- RLOAD, sixty-four ROUND steps, FEED. -/
theorem run_compress {s : State} (hp : s.phase = .rload) (hin : s.inputs = []) :
    stepN 66 s = .next { s with
      hs := compress s.hs s.w, r := rounds s.w s.hs (List.range 64), t := 64, phase := .next } := by
  refine Eq.trans (stepN_succ_engine hin (congrArg decodePhase hp) (exec_rload s)) ?_
  refine Eq.trans (stepN_add (n := 1) (run_round rfl rfl (by exact hin) 64 le_rfl)) ?_
  exact stepN_succ_engine hin rfl (exec_feed _)

/-- Settles O36. -/
theorem compressionFoldsTheSchedule : Obligations.CompressionFoldsTheSchedule :=
  fun _ hp hin => ⟨_, run_compress hp hin, rfl, rfl, rfl, rfl⟩

end Sys2Proof.Proofs
end

section
/-!
PROOFS. The computation as a whole (45_aggregator.md section 3): from SUBMIT to EMIT.
-/
namespace Sys2Proof.Proofs
open Sys2Proof.Machine

/-- One engine step whose operation answers. -/
theorem step_engine_next {s t : State} {i : Instr} (hin : s.inputs = []) (hd : decodePhase s.phase = .ok i)
    (hexec : exec i s = .next t) : step s = .next t :=
  (step_engine hin hd).trans hexec

/-! ### The loop over the chunks (R144, R145)

`s` is the state in which the loop starts; it holds the padded block of `m` in PB. -/

/-- The sequencer at the first WLOAD of chunk `c`, with any schedule `w` and working registers `r`. -/
def atChunk (s : State) (m : List Byte) (c : Nat) (w : Vector Word 64) (r : Words8) : State :=
  { s with ci := c, t := 0, phase := .wload, w := w, r := r, hs := hashAfter m c }

/-- The sequencer in NEXT, chunk `c` folded into HS. -/
def chunkFolded (s : State) (m : List Byte) (c : Nat) (w : Vector Word 64) (r : Words8) : State :=
  { s with ci := c, t := 64, phase := .next, w := w, r := r, hs := hashAfter m (c + 1) }

section
variable {s : State} {m : List Byte} (hin : s.inputs = []) (hfits : paddedLen m.length ≤ s.cfg.pbCap)
  (hblock : ∀ a, a < paddedLen m.length → s.pb.read a = blockByte m a)
include hin hfits hblock

theorem run_chunk {c : Nat} (hc : c < paddedLen m.length / 64) (w : Vector Word 64) (r : Words8) :
    ∃ w' r', stepN 130 (atChunk s m c w r) = .next (chunkFolded s m c w' r') := by
  have hbytes : schedule (chunkBytes (atChunk s m c w r)) =
      schedule (fun k => blockByte m (64 * c + k)) :=
    schedule_congr fun k hk => hblock (64 * c + k) (by omega)
  have hroom : 64 * c + 64 ≤ s.cfg.pbCap := by omega
  have hwords := run_schedule (s := atChunk s m c w r) rfl rfl hin hroom
  rw [hbytes] at hwords
  exact ⟨_, _, (stepN_add (n := 66) hwords).trans (run_compress rfl hin)⟩

variable (hnch : s.nch = paddedLen m.length / 64)
include hnch

/-- From chunk 0 to chunk `c`: each chunk folded, then NEXT. -/
theorem run_chunks (w : Vector Word 64) (r : Words8) {c : Nat} (hc : c < paddedLen m.length / 64) :
    ∃ w' r', stepN (131 * c) (atChunk s m 0 w r) = .next (atChunk s m c w' r') := by
  induction c with
  | zero => exact ⟨w, r, rfl⟩
  | succ c ih =>
    obtain ⟨w₁, r₁, hrun⟩ := ih (by omega)
    obtain ⟨w₂, r₂, hchunk⟩ := run_chunk hin hfits hblock (c := c) (by omega) w₁ r₁
    have hmore : c + 1 < s.nch := hnch ▸ hc
    have hnext : step (chunkFolded s m c w₂ r₂) = .next (atChunk s m (c + 1) w₂ r₂) :=
      step_engine_next hin rfl (exec_next_of_lt hmore)
    refine ⟨w₂, r₂, ?_⟩
    rw [Nat.mul_succ, stepN_add hrun]
    exact stepN_succ_last hchunk hnext

/-- All chunks, then NEXT to EMIT. -/
theorem run_all_chunks (w : Vector Word 64) (r : Words8) :
    ∃ w' r', stepN (131 * (paddedLen m.length / 64)) (atChunk s m 0 w r) =
      .next ((chunkFolded s m (paddedLen m.length / 64 - 1) w' r').goto .emit) := by
  obtain ⟨c, hc⟩ : ∃ c, paddedLen m.length / 64 = c + 1 :=
    Nat.exists_eq_succ_of_ne_zero (Nat.div_pos (paddedLen_pos m.length) (by decide)).ne'
  obtain ⟨w₁, r₁, hrun⟩ := run_chunks hin hfits hblock hnch w r (c := c) (by omega)
  obtain ⟨w₂, r₂, hchunk⟩ := run_chunk hin hfits hblock (c := c) (by omega) w₁ r₁
  have hlast : s.nch ≤ c + 1 := by omega
  have hnext : step (chunkFolded s m c w₂ r₂) = .next ((chunkFolded s m c w₂ r₂).goto .emit) :=
    step_engine_next hin rfl (exec_next_of_le hlast)
  refine ⟨w₂, r₂, ?_⟩
  rw [hc, Nat.mul_succ, stepN_add hrun]
  exact stepN_succ_last hchunk hnext

end

/-- The hash state after the last chunk is the digest. -/
theorem hashAfter_last (m : List Byte) : hashAfter m (paddedLen m.length / 64 - 1 + 1) = sha256 m := by
  have hpos : 1 ≤ paddedLen m.length / 64 := Nat.div_pos (paddedLen_pos m.length) (by decide)
  rw [Nat.sub_add_cancel hpos, sha256]

/-! ### From PSIZE to EMIT -/

/-- The state in which the loop over the chunks starts, for the message staged in `s`. -/
def atFirstChunk (s : State) : State :=
  { s with
    pb := encodedBlock s
    plen := paddedLen s.len
    nch := paddedLen s.len / 64
    ci := 0
    t := 0
    phase := .wload
    hs := iv }

section
variable {s : State} (hp : s.phase = .psize) (hin : s.inputs = []) (hlegal : s.cfg.legal = true)
  (hle : s.len ≤ s.cfg.msgCap) (hfits : paddedLen s.len ≤ s.cfg.pbCap)
include hp hin hlegal hle hfits

/-- The encoder, CHUNK and INIT. -/
theorem run_to_first_chunk : stepN 7 s = .next (atFirstChunk s) := by
  refine Eq.trans (stepN_add (n := 2) (run_encoder hp hin hlegal hle hfits)) ?_
  refine Eq.trans (stepN_succ_engine hin rfl
    (exec_chunk_of_dvd (Nat.dvd_of_mod_eq_zero (paddedLen_mod s.len)))) ?_
  exact stepN_succ_engine hin rfl (exec_init _)

/-- The seven steps, and 131 steps for each chunk. -/
theorem run_to_emit {m : List Byte} (hlen : s.len = m.length)
    (hmsg : ∀ a, a < m.length → s.msg.read a = m.getD a 0) :
    ∃ w r, stepN (7 + 131 * (paddedLen m.length / 64)) s =
      .next ((chunkFolded (atFirstChunk s) m (paddedLen m.length / 64 - 1) w r).goto .emit) := by
  have hblock : ∀ a, a < paddedLen m.length → (atFirstChunk s).pb.read a = blockByte m a :=
    fun a => read_encodedBlock_eq_blockByte hlen hmsg
  have hnch : (atFirstChunk s).nch = paddedLen m.length / 64 := by rw [← hlen, atFirstChunk]
  obtain ⟨w, r, hchunks⟩ := run_all_chunks (s := atFirstChunk s) hin (hlen ▸ hfits) hblock hnch s.w s.r
  exact ⟨w, r, (stepN_add (run_to_first_chunk hp hin hlegal hle hfits)).trans hchunks⟩

end

/-! ### From SUBMIT -/

section
variable {s : State} {m : List Byte} (hidle : s.phase = .idle)
  (hin : s.inputs = [.command cmdSubmit (some (m.length, m))]) (hle : m.length ≤ s.cfg.msgCap)
include hidle hin hle

/-- The command is taken and its message staged. -/
theorem step_submit : step s = .next ((s.withInputs []).stage m m.length) := by
  have hfetch := fetch_command hin fun _ => hidle
  have hsel : decode s.fetch.1 = .ok (.submit m.length m) := by
    rw [hfetch, decode_cmd_cmdSubmit, decodeSubmit_of_length rfl]
  have hexec := exec_submit_of_le (s := s.withInputs []) m hidle hle
  rw [submitBytes_length_self] at hexec
  rw [step_of_decode_fetch hsel, hfetch]
  exact hexec

end

theorem read_stage_getD (s : State) (m : List Byte) {a : Nat} (ha : a < m.length) :
    (s.stage m m.length).msg.read a = m.getD a 0 := by
  rw [read_stage, dif_pos ha, List.getD_eq_getElem _ _ ha]

/-- Settles O38: the SUBMIT, then PSIZE's abort. -/
theorem oversizedRequestKeepsTheDigest : Obligations.OversizedRequestKeepsTheDigest := by
  intro s m hidle hin hle hlong
  rw [← paddedLen_eq] at hlong
  refine ⟨((s.withInputs []).stage m m.length).abort .allocationFailure,
    (stepN_succ_next (step_submit hidle hin hle)).trans (stepN_succ_engine rfl rfl (exec_psize_of_gt hlong)),
    rfl, rfl, rfl, rfl, rfl, rfl, rfl, rfl, rfl⟩

/-- Settles O37: SUBMIT, `run_to_emit`, EMIT; before EMIT the engine is busy, so it was busy all along. -/
theorem submitComputesSha256 : Obligations.SubmitComputesSha256 := by
  rintro s m _ hidle hlegal hin hle hfits rfl
  rw [← paddedLen_eq] at hfits
  have hsubmit := step_submit hidle hin hle
  obtain ⟨w, r, hrun⟩ := run_to_emit (s := (s.withInputs []).stage m m.length) rfl rfl hlegal hle hfits rfl
    fun a => read_stage_getD _ m
  have hchunks : paddedLen m.length / 64 = (m.length + 8) / 64 + 1 := by rw [paddedLen_eq]; omega
  have hsteps : 1 + (8 + 131 * (paddedLen m.length / 64)) = 7 + 131 * (paddedLen m.length / 64) + 1 + 1 := by
    omega
  rw [← hchunks, hsteps]
  constructor
  · refine ⟨_, (stepN_succ_next hsubmit).trans
      (stepN_succ_last hrun (step_engine_next rfl rfl (exec_emit _))), rfl,
      hashAfter_last m, rfl, rfl, rfl, rfl,
      fun a => read_stage_getD _ m, rfl, rfl, rfl⟩
  · intro k hk hlt
    obtain ⟨u, hu, hbusy⟩ := busy_before (m := k - 1) rfl (by omega) hrun nofun
    refine ⟨u, ?_, hbusy⟩
    rw [← Nat.sub_add_cancel hk, stepN_succ_next hsubmit, hu]

end Sys2Proof.Proofs
end

section
/-!
PROOFS. The limits of single operations: a PB of full size, the ranges of the operand lines, the table K.
-/
namespace Sys2Proof.Proofs
open Sys2Proof.Machine

theorem paddedLen_mono {L L' : Nat} (h : L ≤ L') : paddedLen L ≤ paddedLen L' := by
  rw [paddedLen_eq, paddedLen_eq]
  omega

/-- Settles O18: PB_CAP is the padded length of the longest message, and padding is monotone. -/
theorem fullBufferNeverAborts : Obligations.FullBufferNeverAborts := by
  intro s hfull hlen
  rw [← paddedLen_eq] at hfull
  exact ⟨_, exec_psize_of_le ((paddedLen_mono hlen).trans hfull.ge), rfl, rfl⟩

/-! ### Outside the operand lines (00_scope.md R13, 43_schedule.md R125, R126, 44_compress.md R131) -/

section
variable {s : State}

theorem exec_pzero_fault (h : ¬ s.pbHas 0 s.plen) : exec .pzero s = .fault .pbRange := if_neg h

theorem exec_pcopy_fault_msg (h : ¬ s.msgHas 0 s.len) : exec .pcopy s = .fault .msgRange := if_neg h

theorem exec_pcopy_fault_pb (hmsg : s.msgHas 0 s.len) (hpb : ¬ s.pbHas 0 s.len) :
    exec .pcopy s = .fault .pbRange :=
  (if_pos hmsg).trans (if_neg hpb)

theorem exec_pstop_fault (h : ¬ s.pbHas s.len 1) : exec .pstop s = .fault .pbRange := if_neg h

theorem exec_plenf_fault_length (h : 2 ^ 64 ≤ 8 * s.len) : exec .plenf s = .fault .lengthRange := if_pos h

theorem exec_plenf_fault_pb (hlen : 8 * s.len < 2 ^ 64) (h : ¬ (8 ≤ s.plen ∧ s.pbHas s.lengthFieldAddr 8)) :
    exec .plenf s = .fault .pbRange :=
  (if_neg hlen.not_ge).trans (if_neg h)

theorem exec_wload_fault_index (h : 15 < s.t.val) : exec .wload s = .fault .indexRange := if_neg h.not_ge

theorem exec_wload_fault_pb (ht : s.t.val ≤ 15) (h : ¬ s.pbHas s.chunkWordAddr 4) :
    exec .wload s = .fault .pbRange :=
  (if_pos ht).trans (if_neg h)

theorem exec_wexp_fault (h : ¬ (16 ≤ s.t.val ∧ s.t.val ≤ 63)) : exec .wexp s = .fault .indexRange := if_neg h

theorem exec_round_fault (h : 63 < s.t.val) : exec .round s = .fault .indexRange := if_neg h.not_ge

end

/-- Settles O49: each clause denies the check its operation makes first or, for the second clauses of PCOPY,
PLENF and WLOAD, the one it makes after that. -/
theorem outOfRangeOperandsStop : Obligations.OutOfRangeOperandsStop := by
  refine fun s => ⟨fun h => exec_pzero_fault ?_, fun h => exec_pcopy_fault_msg ?_,
    fun hmsg h => exec_pcopy_fault_pb ?_ ?_, fun h => exec_pstop_fault ?_, exec_plenf_fault_length,
    fun hlen h => exec_plenf_fault_pb hlen ?_, fun hlen hge h => exec_plenf_fault_pb hlen ?_,
    exec_wload_fault_index, fun ht h => exec_wload_fault_pb ht h.not_ge, fun h => exec_wexp_fault (by omega),
    exec_round_fault⟩
  all_goals
    simp only [State.pbHas, State.msgHas, State.lengthFieldAddr]
    omega

/-! ### The round constants (40_arith.md R93) -/

/-- Settles O55: each row is read off `kTable` (log 11). -/
theorem roundConstantsAreTheTable : Obligations.RoundConstantsAreTheTable :=
  ⟨rfl, rfl, rfl, rfl, rfl, rfl, rfl, rfl, rfl, rfl, rfl, rfl, rfl, rfl, rfl, rfl⟩

end Sys2Proof.Proofs
end
